-- ==== Sys2Proof/Word.lean ====
section
/-!
DEFINITION. The value types of the RISC-AR5 core (00_scope.md R5, R7, R8).
Bit 0 is the least significant bit throughout (R7); the source's MSB-first positions are translated
where a rule quotes one.
-/

namespace Sys2Proof

/-- One 8-bit cell: a general register, the accumulator, the program counter or a memory cell
(R5 `XLEN`, `ALEN`, `PCLEN`, `CELL`). -/
abbrev Byte := BitVec 8

/-- One 16-bit instruction word (R5 `ILEN`, `IRLEN`; R50). -/
abbrev Word := BitVec 16

/-- The index of a general register, 0 to 7 (R11, R57: every value names a register). -/
abbrev RegIdx := Fin 8

/-- The code of a character held in the input channel's buffer.
A number of any size: the spec warns not to assume codes below 256 before truncation
(91_not_in_source.md N3; log entry 17). -/
abbrev CharCode := Nat

end Sys2Proof
end

