-- ==== Sys2Proof/Config.lean ====
section
/-!
DEFINITION. The parameters of 00_scope.md R5.
The three the spec leaves OPEN are opaque constants without a body, so no proof can see a value and a
claim about them holds for every legal value.
The two the spec decides but keeps as model arguments are given here as types and as `Params`; the decided
values stand in Machine/Ops.lean.
-/

namespace Sys2Proof

/-- How the packed 4-bit status register is ordered (R17, `SR_PACK`). -/
inductive SrPack where
  /-- most significant first `Z C N V` -/
  | zcnv
  /-- most significant first `V N C Z` -/
  | vncz
  deriving DecidableEq, Repr, Inhabited

/-- Which bit enters the vacated position of RLC and RRC (R112, R113, `ROT_FILL`, decision D4). -/
inductive RotFill where
  /-- the incoming carry (the spec's decision) -/
  | carryIn
  /-- the bit that leaves -/
  | wrap
  /-- zero -/
  | zero
  deriving DecidableEq, Repr

/-- What a taken branch with bit 7 of `x[7]` set does (R136, `BRANCH_HIGH_TARGET`, decision D7). -/
inductive BranchHighTarget where
  /-- `PC` is read as an unsigned index: cells 128 to 255 (the spec's decision) -/
  | unsigned
  /-- the branch is a fatal fault (the cautious alternative) -/
  | fault
  deriving DecidableEq, Repr

/-- The two parameters the spec decides and keeps as model arguments (R5). A definition whose name ends in
`With` takes them, or the one it needs, as an argument; a claim that must not rest on D4 or D7 quantifies over
them. -/
structure Params where
  /-- `ROT_FILL` -/
  rotFill : RotFill
  /-- `BRANCH_HIGH_TARGET` -/
  branchHighTarget : BranchHighTarget
  deriving DecidableEq, Repr

/-- `IO_IN_BASE`, first address of the 2-cell input range: OPEN in `0..254` (R5, R39, D10).
Free: no body, nothing can be proved of it but its range (log entry 4, safe). -/
opaque Config.ioInBase : Fin 255

/-- `IO_OUT_BASE`, first address of the 4-cell output range: OPEN in `0..252` (R5, R39, D10).
Free: no body, nothing can be proved of it but its range (log entry 4, safe). -/
opaque Config.ioOutBase : Fin 253

/-- `SR_PACK`: OPEN with two legal values (R17, D3).
Free: no body (log entry 5, safe). -/
opaque Config.srPack : SrPack

end Sys2Proof
end

