-- ==== Sys2Proof/Syntax.lean ====
section
/-!
DEFINITION. The 20 instructions of spec/opcode_table.json (30_encoding.md R55), one constructor a row.
A constructor holds exactly the operand its format uses (R52): a register index, a cell address byte or
an immediate byte. The ignored bits of a word are no operand (R52, R56; log entry 22); they live on in
`IR` only.
-/

namespace Sys2Proof

/-- The instruction set. `r` is the register index of a register-direct instruction, `a` the operand byte
of a direct one and `i` the operand byte of the immediate one. -/
inductive Instr where
  /-- `A <- A & x[r]` (R93) -/
  | and (r : RegIdx)
  /-- `A <- A | x[r]` (R94) -/
  | or (r : RegIdx)
  /-- `A <- A + x[r] + C` (R95) -/
  | addc (r : RegIdx)
  /-- `A <- A - x[r]` (R96) -/
  | sub (r : RegIdx)
  /-- `A <- A[3:0] * x[r][3:0]` (R97) -/
  | mul (r : RegIdx)
  /-- `A <- -A` (R110) -/
  | neg
  /-- `A <- ~A` (R111) -/
  | not
  /-- rotate `A` left through `C` (R112) -/
  | rlc
  /-- rotate `A` right through `C` (R113) -/
  | rrc
  /-- `A <- x[r]` (R120) -/
  | ldar (r : RegIdx)
  /-- `x[r] <- A` (R121) -/
  | star (r : RegIdx)
  /-- `A <- Mem[a]` (R122) -/
  | ldaa (a : Byte)
  /-- `Mem[a] <- A` (R123) -/
  | staa (a : Byte)
  /-- `A <- i` (R124), assembler spelling `LDI` -/
  | ldai (i : Byte)
  /-- `if Z: PC <- x[7]` (R130) -/
  | brz
  /-- `if C: PC <- x[7]` (R131) -/
  | brc
  /-- `if N: PC <- x[7]` (R132) -/
  | brn
  /-- `if V: PC <- x[7]` (R133) -/
  | bro
  /-- nothing (R134) -/
  | nop
  /-- `RUN <- HALTED` (R135) -/
  | stop
  deriving DecidableEq, Repr

end Sys2Proof
end

