-- ==== Sys2Proof/WellFormed.lean ====
section
/-!
DEFINITION. Formats, operations and well-formedness.
The operands of `Instr` are typed by their fields (R57: every field value is legal), so a bad operand can
only be written in source form: `SourceLine` is the assembler's line of 30_encoding.md R61 with its
mnemonic already looked up, and `SourceLine.wellFormed` is the operand check of R62.
An instruction is well-formed when the line that writes it passes that check.
-/

namespace Sys2Proof

/-- The four formats, one per addressing mode (R52). -/
inductive Format where
  | implicit
  | register
  | direct
  | immediate
  deriving DecidableEq, Repr

/-- The 20 operations (R55): an instruction without its operand, output `op` of the decoder (R60). -/
inductive Op where
  | and | or | addc | sub | mul
  | neg | not | rlc | rrc
  | ldar | star | ldaa | staa | ldai
  | brz | brc | brn | bro | nop | stop
  deriving DecidableEq, Repr

/-- The addressing mode of each operation (R52, R55). -/
def Op.format : Op → Format
  | .and | .or | .addc | .sub | .mul | .ldar | .star => .register
  | .neg | .not | .rlc | .rrc => .implicit
  | .brz | .brc | .brn | .bro | .nop | .stop => .implicit
  | .ldaa | .staa => .direct
  | .ldai => .immediate

/-- The operation of an instruction. -/
def Instr.op : Instr → Op
  | .and _ => .and
  | .or _ => .or
  | .addc _ => .addc
  | .sub _ => .sub
  | .mul _ => .mul
  | .neg => .neg
  | .not => .not
  | .rlc => .rlc
  | .rrc => .rrc
  | .ldar _ => .ldar
  | .star _ => .star
  | .ldaa _ => .ldaa
  | .staa _ => .staa
  | .ldai _ => .ldai
  | .brz => .brz
  | .brc => .brc
  | .brn => .brn
  | .bro => .bro
  | .nop => .nop
  | .stop => .stop

/-- The range check of the assembler, "the BitField `fits` rule" (R62, R9):
`value >= -2^(width-1) and value < 2^width`, asymmetric as the source has it (U1). -/
def fits (value : Int) (width : Nat) : Bool :=
  decide (-(2 ^ (width - 1) : Int) ≤ value) && decide (value < (2 ^ width : Int))

/-- A source line: an operation and the decimal operands written after it (R61). -/
structure SourceLine where
  op : Op
  operands : List Int
  deriving DecidableEq, Repr

/-- The operand check per mode (R62): implicit ignores its operand, register-direct wants an integer in
`[0,7]`, direct and immediate one that fits 8 bits.
A missing operand is an error (decision D23) and a second one is refused (U16); log entry 23. -/
def SourceLine.wellFormed (l : SourceLine) : Bool :=
  match l.operands with
  | [] => decide (l.op.format = .implicit)
  | [x] =>
    match l.op.format with
    | .implicit => true
    | .register => decide (0 ≤ x) && decide (x ≤ 7)
    | .direct => fits x 8
    | .immediate => fits x 8
  | _ :: _ :: _ => false

/-- The source line that writes an instruction: its operation and its operand in decimal (R61, R63). -/
def Instr.source (i : Instr) : SourceLine :=
  match i with
  | .and r | .or r | .addc r | .sub r | .mul r | .ldar r | .star r => ⟨i.op, [(r.val : Int)]⟩
  | .ldaa a | .staa a => ⟨i.op, [(a.toNat : Int)]⟩
  | .ldai v => ⟨i.op, [(v.toNat : Int)]⟩
  | .neg | .not | .rlc | .rrc | .brz | .brc | .brn | .bro | .nop | .stop => ⟨i.op, []⟩

/-- An instruction is well-formed when the assembler accepts the line that writes it (R62). -/
def Instr.wellFormed (i : Instr) : Bool := i.source.wellFormed

end Sys2Proof
end

