-- ==== Sys2Proof/Decode.lean ====
section
/-!
DEFINITION. The instruction decoder of 30_encoding.md R50 to R60, a pure total function of a 16-bit word
or of the bytes of one, and after it the encoder of R62.
-/

namespace Sys2Proof

/-! ## Fields (R51) -/

/-- `opcode = w[15:11]`, the source's bits 0-4. -/
def opcodeOf (w : Word) : BitVec 5 := w.extractLsb' 11 5

/-- `rf = w[10:8]`, the source's bits 5-7, read as an unsigned index (R57). -/
def rfOf (w : Word) : RegIdx := (w.extractLsb' 8 3).toFin

/-- `opnd8 = w[7:0]`, the source's bits 8-15. -/
def opnd8Of (w : Word) : Byte := w.extractLsb' 0 8

/-! ## Opcode map (R53 to R55) -/

/-- The opcode of each operation (R55; the pairing is the spec's decision D1, log entry 3). -/
def Op.opcode : Op → BitVec 5
  | .and => 0
  | .or => 1
  | .addc => 3
  | .sub => 4
  | .mul => 5
  | .neg => 6
  | .not => 7
  | .rlc => 8
  | .rrc => 9
  | .ldar => 10
  | .star => 11
  | .ldaa => 12
  | .staa => 13
  | .ldai => 14
  | .brz => 16
  | .brc => 17
  | .brn => 18
  | .bro => 19
  | .nop => 24
  | .stop => 31

/-- The operation an opcode names (R55), none for the 12 illegal opcodes (R53, R58). -/
def opOf (opcode : BitVec 5) : Option Op :=
  match opcode.toNat with
  | 0 => some .and
  | 1 => some .or
  | 3 => some .addc
  | 4 => some .sub
  | 5 => some .mul
  | 6 => some .neg
  | 7 => some .not
  | 8 => some .rlc
  | 9 => some .rrc
  | 10 => some .ldar
  | 11 => some .star
  | 12 => some .ldaa
  | 13 => some .staa
  | 14 => some .ldai
  | 16 => some .brz
  | 17 => some .brc
  | 18 => some .brn
  | 19 => some .bro
  | 24 => some .nop
  | 31 => some .stop
  | _ => none

/-- `valid(w)`: the opcode is in the legal set (R53); no other bit matters (R56). -/
def isValid (w : Word) : Bool := (opOf (opcodeOf w)).isSome

/-- `halt(w)`: valid and opcode 31 (R54). -/
def isHalt (w : Word) : Bool := isValid w && opcodeOf w == 31

/-- The format of a word, none when it is not valid (R60). -/
def formatOf (w : Word) : Option Format := (opOf (opcodeOf w)).map Op.format

/-! ## The decoder -/

/-- Why a byte sequence is no instruction. -/
inductive DecodeError where
  /-- the opcode is not in the legal set (R53, R58); in a cycle such a word is a silent no-op (R76) -/
  | illegalOpcode (opcode : BitVec 5)
  /-- fewer than the two bytes of a word (R50); never the case for a fetched word -/
  | truncated
  deriving DecidableEq, Repr

/-- An operation with the operand its format takes from the word (R52, R57). -/
def Op.withOperands (op : Op) (w : Word) : Instr :=
  match op with
  | .and => .and (rfOf w)
  | .or => .or (rfOf w)
  | .addc => .addc (rfOf w)
  | .sub => .sub (rfOf w)
  | .mul => .mul (rfOf w)
  | .neg => .neg
  | .not => .not
  | .rlc => .rlc
  | .rrc => .rrc
  | .ldar => .ldar (rfOf w)
  | .star => .star (rfOf w)
  | .ldaa => .ldaa (opnd8Of w)
  | .staa => .staa (opnd8Of w)
  | .ldai => .ldai (opnd8Of w)
  | .brz => .brz
  | .brc => .brc
  | .brn => .brn
  | .bro => .bro
  | .nop => .nop
  | .stop => .stop

/-- The decoder on one word (R60). -/
def decodeWord (w : Word) : Except DecodeError Instr :=
  match opOf (opcodeOf w) with
  | some op => .ok (op.withOperands w)
  | none => .error (.illegalOpcode (opcodeOf w))

/-- The decoder on bytes: an instruction word is two cells, high byte first (R36, R50).
It answers the instruction and the bytes after it. -/
def decodeBytes : List Byte → Except DecodeError (Instr × List Byte)
  | hi :: lo :: rest =>
    match decodeWord (hi ++ lo) with
    | .ok i => .ok (i, rest)
    | .error e => .error e
  | _ => .error .truncated

/-! ## The encoder (R62: every unused bit is 0) -/

/-- The register field of an instruction, 0 in the formats that ignore it. -/
def Instr.rfField : Instr → BitVec 3
  | .and r | .or r | .addc r | .sub r | .mul r | .ldar r | .star r => BitVec.ofNat 3 r.val
  | .neg | .not | .rlc | .rrc | .brz | .brc | .brn | .bro | .nop | .stop => 0
  | .ldaa _ | .staa _ | .ldai _ => 0

/-- The operand byte of an instruction, 0 in the formats that ignore it. -/
def Instr.opnd8Field : Instr → Byte
  | .ldaa a | .staa a => a
  | .ldai v => v
  | .and _ | .or _ | .addc _ | .sub _ | .mul _ | .ldar _ | .star _ => 0
  | .neg | .not | .rlc | .rrc | .brz | .brc | .brn | .bro | .nop | .stop => 0

/-- The word of an instruction: the three fields side by side (R51). -/
def encode (i : Instr) : Word := i.op.opcode ++ i.rfField ++ i.opnd8Field

/-- The two cells of a word, high byte first (R36). -/
def wordBytes (w : Word) : List Byte := [w.extractLsb' 8 8, w.extractLsb' 0 8]

/-- The bytes of an instruction as they lie in memory. -/
def encodeBytes (i : Instr) : List Byte := wordBytes (encode i)

/-! ## The host's question about one row of the opcode table -/

/-- The instruction the decoder reads from an instruction whose bits are `w`, numbered as
spec/opcode_table.json numbers them: the table's words are 16 bits wide, so `w` is the word itself, and
every bit above the low `nbits` is 0. -/
def decodeTableWord (nbits w : Nat) : Option Instr :=
  match decodeBytes (wordBytes (BitVec.ofNat 16 (w % 2 ^ nbits))) with
  | .ok (i, _) => some i
  | .error _ => none

end Sys2Proof
end

