-- ==== Sys2Proof/Machine/State.lean ====
section
/-!
DEFINITION. The state of the machine (10_state.md R10: "Nothing else is state"), the reasons a step can
stop, and the state after reset (R22).
-/

namespace Sys2Proof.Machine

/-- The status register `SR`, four independent one-bit flags (R16).
The packed view of R17 is computed from them (`Flags.pack` in Machine/Flags.lean). -/
structure Flags where
  /-- ZERO -/
  z : Bool
  /-- CARRY -/
  c : Bool
  /-- NEGATIVE -/
  n : Bool
  /-- OVERFLOW -/
  v : Bool
  deriving DecidableEq, Repr

/-- The "running/halted boolean" `RUN` (R19, R70). -/
inductive RunState where
  | running
  | halted
  deriving DecidableEq, Repr

/-- Memory (R30): the cells that differ from `Memory.unlisted`, as (address, byte) pairs in rising order
of address (Machine/Ops.lean says when the list is canonical). -/
abbrev Memory := List Host.Cell

/-- The whole state of the machine (R10). -/
structure State where
  /-- `x[0]..x[7]`, the general registers R0 to R7 (R11) -/
  regs : Vector Byte 8
  /-- `A`, the accumulator (R13) -/
  acc : Byte
  /-- `PC` (R14) -/
  pc : Byte
  /-- `IR`, the raw word most recently fetched (R15) -/
  ir : Word
  /-- `SR` (R16) -/
  flags : Flags
  /-- `RUN` (R19) -/
  run : RunState
  /-- `Mem[0..255]` (R30) -/
  mem : Memory
  /-- `InBuf`, the codes of the at most 2 characters the host wrote (R20; log entries 17, 18) -/
  inBuf : List CharCode
  /-- `OutBuf`, the 4 bytes last mirrored, or none since reset (R20, R42; log entries 17, 18) -/
  outBuf : List Byte
  deriving DecidableEq, Repr

/-- Why the machine stops. Every fault is fatal: no state is saved, no handler runs, and the state stays
as it was at the start of the faulting cycle (R146, decision D17; log entry 15). -/
inductive Fault where
  /-- The fetch of a cycle that starts with `PC = 0xFF`: its second cell has index 256 (R141).
  Raised by `step` alone, through `fetchWord`. Safe: the model stops where the spec says the machine
  is fatal (decision D13, log entry 14). -/
  | fetchOutOfRange
  /-- A memory access outside `0..255` (R35, R140). Raised by the host's `init` with more than 128
  words (R161, log entry 25); the direct handler has a path to it that no address takes (R125). Safe. -/
  | indexOutOfRange
  /-- A taken branch whose `x[7]` has bit 7 set, under `BRANCH_HIGH_TARGET = fault` only (R136, R141).
  Raised by `takeBranchWith .fault`; under the decided value `unsigned` no instruction raises it
  (log entry 7), under `fault` the four branches do (`execWith`). Safe. -/
  | branchHighTarget
  deriving DecidableEq, Repr

/-- Why the model gives no meaning. -/
inductive Refusal where
  /-- An instruction whose arm in `exec` has no meaning yet. Raised by no arm of this model. Safe. -/
  | notModelled (mnemonic : String)
  deriving DecidableEq, Repr

/-- The machine right after reset (R22) with no program loaded; loading one is the host's `init`
(R160, R161; log entry 19).
Only `PC = 0x00` follows from the source; every other value is the spec's decision D8 (log entries 1
and 2, unsafe). -/
def State.reset : State where
  regs := Vector.replicate 8 0
  acc := 0
  pc := 0
  ir := 0
  flags := { z := false, c := false, n := false, v := false }
  run := .running
  mem := []
  inBuf := []
  outBuf := []

end Sys2Proof.Machine
end

