-- ==== Sys2Proof/Machine/Ops.lean ====
section
/-!
DEFINITION. The named operations over memory, registers, the I/O channels and the cycle, and the one
operation that raises a fault. Everything later is written over these.
-/

namespace Sys2Proof.Machine

/-! ## Decided parameters (00_scope.md R5) -/

/-- `ROT_FILL = carry_in` (R112, R113, decision D4; log entry 6, unsafe). -/
def rotFill : RotFill := .carryIn

/-- `BRANCH_HIGH_TARGET = unsigned` (R136, decision D7; log entry 7, unsafe). -/
def branchHighTarget : BranchHighTarget := .unsigned

/-- The two parameters at the spec's decisions: those of `exec`, `step` and `core` (log entries 6, 7). -/
def decidedParams : Params := ⟨rotFill, branchHighTarget⟩

/-- `IO_IN_BASE` as a cell index (R39; OPEN, log entry 4). -/
def ioInBase : Nat := Config.ioInBase.val

/-- `IO_OUT_BASE` as a cell index (R39; OPEN, log entry 4). -/
def ioOutBase : Nat := Config.ioOutBase.val

/-- `SR_PACK` (R17; OPEN, log entry 5). -/
def srPack : SrPack := Config.srPack

/-- `N`, the number of cells (R5, R30). -/
def memSize : Nat := 256

/-- `IN_CELLS`: cells of the input range, and the input buffer's capacity (R5, R20; log entry 18). -/
def inCells : Nat := 2

/-- `OUT_CELLS`: cells of the output range, and the output buffer's capacity (R5, R20; log entry 18). -/
def outCells : Nat := 4

/-! ## Outcomes -/

/-- What a step or an instruction answers. -/
abbrev Result := Host.Outcome State Fault Refusal

/-- `raise Fault(kind)` (R8, R146): the one operation that stops the machine.
There is no trap entry in this machine: nothing is saved, no mode changes and control goes nowhere.
There is no return from a fault either (R147). The outcome carries no state because the state stays as it
was at the start of the cycle. -/
def raiseFault (kind : Fault) : Result := .fault kind

/-! ## Memory (20_memory.md R30 to R36) -/

/-- What a cell that is not listed reads as: the reset content (R22, decision D8; log entry 2). -/
def Memory.unlisted : Byte := 0

/-- The content of cell `a` in the list. -/
def Memory.cell : Memory → Nat → Byte
  | [], _ => Memory.unlisted
  | (k, v) :: rest, a =>
    if a < k then Memory.unlisted
    else if a = k then v
    else Memory.cell rest a

/-- The list with cell `a` holding `v`. Writing the unlisted value removes the entry, so that equal
memories are equal lists. -/
def Memory.put : Memory → Nat → Byte → Memory
  | [], a, v => if v = Memory.unlisted then [] else [(a, v)]
  | (k, x) :: rest, a, v =>
    if a < k then if v = Memory.unlisted then (k, x) :: rest else (a, v) :: (k, x) :: rest
    else if a = k then if v = Memory.unlisted then rest else (a, v) :: rest
    else (k, x) :: Memory.put rest a v

/-- Every entry from `low` on: addresses strictly rising below `memSize`, no entry at the unlisted value. -/
def Memory.wfFrom : Nat → Memory → Bool
  | _, [] => true
  | low, (k, v) :: rest =>
    decide (low ≤ k) && decide (k < memSize) && decide (v ≠ Memory.unlisted) && Memory.wfFrom (k + 1) rest

/-- The canonical form of memory. -/
def Memory.wf (m : Memory) : Bool := Memory.wfFrom 0 m

/-- `MemRead(addr, 1)` (R31): the cell's 8 bits; an index outside `[0, N)` is an index error (R35). -/
def Memory.readCell (m : Memory) (a : Nat) : Option Byte :=
  if a < memSize then some (m.cell a) else none

/-- `MemWrite(addr, 1, v)` (R33) for a value of 8 bits; an index outside `[0, N)` is an index error (R35). -/
def Memory.writeCell (m : Memory) (a : Nat) (v : Byte) : Option Memory :=
  if a < memSize then some (m.put a v) else none

/-- The `k` consecutive cells from `a` on, none when an index leaves `[0, N)` (R32, R35: indices do not
wrap). -/
def Memory.readCells (m : Memory) (a : Nat) : Nat → Option (List Byte)
  | 0 => some []
  | k + 1 =>
    match m.readCell a, m.readCells (a + 1) k with
    | some b, some bs => some (b :: bs)
    | _, _ => none

/-- The cells side by side as one number, "the cell at the lowest address in the most-significant
position" (R32). -/
def concatCells (bs : List Byte) : Nat := bs.foldl (fun n b => 256 * n + b.toNat) 0

/-- `MemRead(addr, k)` (R32): the `8k`-bit vector of `k` cells. -/
def Memory.readWide (m : Memory) (a k : Nat) : Option (BitVec (8 * k)) :=
  (m.readCells a k).map fun bs => BitVec.ofNat (8 * k) (concatCells bs)

/-- Writes the bytes to consecutive cells from `a` on, none when an index leaves `[0, N)` (R34, R35). -/
def Memory.writeCells (m : Memory) (a : Nat) : List Byte → Option Memory
  | [] => some m
  | b :: bs =>
    match m.writeCell a b with
    | some m' => m'.writeCells (a + 1) bs
    | none => none

/-- The number of cells a `numBits`-bit write takes, `ceil(numBits / cellSize)` (R34). -/
def cellsFor (numBits : Nat) : Nat := (numBits + 7) / 8

/-- The cell-sized slices of `data`'s `numBits`-bit view, most significant first, right-aligned with the
top slice sign-extended (R34; decision D22, log entry 21). -/
def slices (data : Int) (numBits : Nat) : List Byte :=
  let k := cellsFor numBits
  let d : BitVec (8 * k) := (BitVec.ofInt numBits data).signExtend (8 * k)
  (List.range k).map fun i => d.extractLsb' (8 * (k - 1 - i)) 8

/-- The multi-cell write `setDataAt(loc, data, numBits)` (R34). -/
def Memory.writeWide (m : Memory) (loc : Nat) (data : Int) (numBits : Nat) : Option Memory :=
  m.writeCells loc (slices data numBits)

/-- Puts the bytes at consecutive cells that the caller knows to lie in memory (the mirrors' ranges). -/
def Memory.putCells (m : Memory) (a : Nat) : List Byte → Memory
  | [] => m
  | b :: bs => (m.put a b).putCells (a + 1) bs

/-! ## General registers (10_state.md R11) -/

/-- `x[r]`; no register is hard-wired (R11). -/
def State.reg (s : State) (r : RegIdx) : Byte := s.regs[r.val]

/-- `x[r] <- v`. -/
def State.setReg (s : State) (r : RegIdx) (v : Byte) : State :=
  { s with regs := s.regs.set r.val v }

/-- `A <- v`. -/
def State.setAcc (s : State) (v : Byte) : State := { s with acc := v }

/-- `SR <- f`. -/
def State.setFlags (s : State) (f : Flags) : State := { s with flags := f }

/-- `PC <- target` (R8). -/
def State.setPc (s : State) (target : Byte) : State := { s with pc := target }

/-- `IR <- w` (R74). -/
def State.setIr (s : State) (w : Word) : State := { s with ir := w }

/-- `RUN <- r` (R135, R166). -/
def State.setRun (s : State) (r : RunState) : State := { s with run := r }

/-- The memory replaced. -/
def State.setMem (s : State) (m : Memory) : State := { s with mem := m }

/-! ## I/O mirroring (20_memory.md R41 to R43) -/

/-- The input mirror with the range at `base` (R41): the buffered characters' codes, truncated to 8 bits,
go to the cells from the base upward; cells without a character are left alone (decision D11, log
entry 12). -/
def State.inputMirrorAt (s : State) (base : Nat) : State :=
  { s with mem := s.mem.putCells base ((s.inBuf.take inCells).map (BitVec.ofNat 8)) }

/-- The output mirror with the range at `base` (R42): the four cells go to the output buffer. -/
def State.outputMirrorAt (s : State) (base : Nat) : State :=
  { s with outBuf := (List.range outCells).map fun j => s.mem.cell (base + j) }

/-- `IoSync()` with the ranges at the given bases: input first (R41, R42). -/
def State.ioSyncAt (s : State) (inBase outBase : Nat) : State :=
  (s.inputMirrorAt inBase).outputMirrorAt outBase

/-- `IoSync()` at the machine's bases. -/
def State.ioSync (s : State) : State := s.ioSyncAt ioInBase ioOutBase

/-! ## The cycle around an instruction (40_control.md R71 to R76, R79) -/

/-- The fetch (R72): cells `PC` and `PC+1`, the second index computed without wrap-around; none when it
leaves memory. -/
def State.fetchWord (s : State) : Option Word := s.mem.readWide s.pc.toNat 2

/-- `PC <- trunc_8(u8(PC) + 2)` (R73). -/
def State.advancePc (s : State) : State := s.setPc (BitVec.ofNat 8 (s.pc.toNat + 2))

/-- Steps 1 to 3 of the cycle for a fetched word: PC advance, IR load, first I/O mirror (R73 to R75). -/
def State.beginCycle (s : State) (w : Word) : State := (s.advancePc.setIr w).ioSync

/-- Step 3 again, after the handler (R79): the second I/O mirror; a fault ends the cycle where it is. -/
def finishCycle : Result → Result
  | .next s => .next s.ioSync
  | .fault k => .fault k
  | .refused r => .refused r

/-- The rest of a cycle whose word is invalid (R76): nothing, not even the second I/O mirror
(decision D12, log entry 13). -/
def skipInvalid (s : State) : Result := .next s

/-- One cycle (R71) around `run`, which gives each instruction its step 5. -/
def cycleWith (run : Instr → State → Result) (s : State) : Result :=
  match s.fetchWord with
  | none => raiseFault .fetchOutOfRange
  | some w =>
    match decodeWord w with
    | .ok i => finishCycle (run i (s.beginCycle w))
    | .error _ => skipInvalid (s.beginCycle w)

end Sys2Proof.Machine
end

