-- ==== Sys2Proof/Machine/Operands.lean ====
section
/-!
DEFINITION. The operand of each addressing mode (30_encoding.md R57; 40_control.md R77): none for implicit,
a register's value for register-direct, a cell address for direct, the byte itself for immediate; and the
branch target (44_branch_control.md R136).
-/

namespace Sys2Proof.Machine

/-- The register-direct operand: the value of `x[rf]` (R90). -/
def registerOperand (s : State) (r : RegIdx) : Byte := s.reg r

/-- The direct operand's cell address (R125): the byte read signed, "normalized by adding the memory size"
when it is negative. -/
def directAddr (opnd8 : Byte) : Nat :=
  if opnd8.toInt < 0 then (opnd8.toInt + memSize).toNat else opnd8.toInt.toNat

/-- The immediate operand: the 8 bits as they are (R57, R124). -/
def immediateOperand (opnd8 : Byte) : Byte := opnd8

/-- The branch target: all 8 bits of `x[7]` (R12, R136). -/
def branchTarget (s : State) : Byte := s.reg 7

/-- A load from a direct operand's cell, continued with the value; the index error of R35 never arises
here, since every direct address is a cell (R125). -/
def withDirectCell (s : State) (opnd8 : Byte) (k : Byte → Result) : Result :=
  match s.mem.readCell (directAddr opnd8) with
  | some v => k v
  | none => raiseFault .indexOutOfRange

/-- A store of `v` to a direct operand's cell (R123). -/
def storeDirect (s : State) (opnd8 : Byte) (v : Byte) : Result :=
  match s.mem.writeCell (directAddr opnd8) v with
  | some m => .next (s.setMem m)
  | none => raiseFault .indexOutOfRange

/-- "copy R7 into PC only if the corresponding status flag is set" (R136), with `BRANCH_HIGH_TARGET` as an
argument. -/
def takeBranchWith (high : BranchHighTarget) (flag : Bool) (s : State) : Result :=
  if flag then
    match high with
    | .unsigned => .next (s.setPc (branchTarget s))
    | .fault =>
      if (branchTarget s).msb then raiseFault .branchHighTarget else .next (s.setPc (branchTarget s))
  else .next s

end Sys2Proof.Machine
end

