-- ==== Sys2Proof/Machine/Flags.lean ====
section
/-!
DEFINITION. The condition-flag engine and the ALU: pure functions from the accumulator, an operand, the
carry and the status register to a result and new flags (40_control.md R85; 41_alu_register_direct.md R90
to R98; 42_alu_implicit.md R110 to R113).
-/

namespace Sys2Proof.Machine

/-! ## Flag-engine primitives -/

/-- `SetZN(v)` (R91). -/
def Flags.setZN (f : Flags) (v : Byte) : Flags := { f with z := v == 0, n := v.msb }

/-- `ClearCV()` (R92). -/
def Flags.clearCV (f : Flags) : Flags := { f with c := false, v := false }

/-- `C` and `V` written. -/
def Flags.setCV (f : Flags) (c v : Bool) : Flags := { f with c := c, v := v }

/-- The overflow rule (R95, R96): both operands have the same sign and the result's differs. -/
def signRule (a b r : Byte) : Bool := a.msb == b.msb && r.msb != a.msb

/-- The packed status register (R17), in the order `p`. -/
def Flags.pack (p : SrPack) (f : Flags) : BitVec 4 :=
  match p with
  | .zcnv => BitVec.ofBool f.z ++ BitVec.ofBool f.c ++ BitVec.ofBool f.n ++ BitVec.ofBool f.v
  | .vncz => BitVec.ofBool f.v ++ BitVec.ofBool f.n ++ BitVec.ofBool f.c ++ BitVec.ofBool f.z

/-! ## The ALU -/

/-- What an ALU operation gives: the result written to `A` and the flags written to `SR` (R85). -/
structure AluOut where
  result : Byte
  flags : Flags
  deriving DecidableEq, Repr

/-- The common end of AND, OR, MUL, NEG and NOT: `SetZN(r); ClearCV()`. -/
def logicOut (f : Flags) (r : Byte) : AluOut := ⟨r, (f.setZN r).clearCV⟩

/-- AND (R93). -/
def aluAnd (a b : Byte) (f : Flags) : AluOut := logicOut f (a &&& b)

/-- OR (R94). -/
def aluOr (a b : Byte) (f : Flags) : AluOut := logicOut f (a ||| b)

/-- The 9-bit sum of ADDC as a number, `u8(a) + u8(b) + cin` (R95). -/
def addcSum (a b : Byte) (cin : Bool) : Nat := a.toNat + b.toNat + cin.toNat

/-- ADDC (R95): the carry is bit 8 of the sum, the overflow the sign rule. -/
def aluAddc (a b : Byte) (f : Flags) : AluOut :=
  let t := addcSum a b f.c
  let r := BitVec.ofNat 8 t
  ⟨r, (f.setZN r).setCV (t.testBit 8) (signRule a b r)⟩

/-- SUB (R96): the carry is the SIGNED less-than, the overflow the addition's sign rule on `(a, b, r)`;
the carry-in is not used (decision D6) and the result is 8 bits (decision D24); log entry 9. -/
def aluSub (a b : Byte) (f : Flags) : AluOut :=
  let r := BitVec.ofInt 8 (a.toInt - b.toInt)
  ⟨r, (f.setZN r).setCV (decide (a.toInt < b.toInt)) (signRule a b r)⟩

/-- MUL (R97): the low nibbles, unsigned. -/
def aluMul (a b : Byte) (f : Flags) : AluOut :=
  logicOut f (BitVec.ofNat 8 ((a.extractLsb' 0 4).toNat * (b.extractLsb' 0 4).toNat))

/-- NEG (R110): `trunc_8(0 - s8(A))` (decision D19, log entry 10). -/
def aluNeg (a : Byte) (f : Flags) : AluOut := logicOut f (BitVec.ofInt 8 (0 - a.toInt))

/-- NOT (R111). -/
def aluNot (a : Byte) (f : Flags) : AluOut := logicOut f (~~~a)

/-- The bit that enters on a rotation (R112, R113): the carry, the bit that leaves, or zero. -/
def fillBit (p : RotFill) (cin leaving : Bool) : Bool :=
  match p with
  | .carryIn => cin
  | .wrap => leaving
  | .zero => false

/-- RLC (R112) with `ROT_FILL` as an argument: `r = a[6:0] ++ fill`, `C = a[7]`, `V = 0`. -/
def aluRlcWith (p : RotFill) (a : Byte) (f : Flags) : AluOut :=
  let r : Byte := a.extractLsb' 0 7 ++ BitVec.ofBool (fillBit p f.c a.msb)
  ⟨r, (f.setZN r).setCV a.msb false⟩

/-- RRC (R113) with `ROT_FILL` as an argument: `r = fill ++ a[7:1]`, `C = a[0]`, `V = 0`. -/
def aluRrcWith (p : RotFill) (a : Byte) (f : Flags) : AluOut :=
  let r : Byte := BitVec.ofBool (fillBit p f.c (a.getLsbD 0)) ++ a.extractLsb' 1 7
  ⟨r, (f.setZN r).setCV (a.getLsbD 0) false⟩

/-! ## Writing results -/

/-- The ALU's result to `A` and its flags to `SR`, in the same cycle (R85). -/
def writeAlu (s : State) (o : AluOut) : Result := .next ((s.setAcc o.result).setFlags o.flags)

/-- A load: the value to `A`, `Z` and `N` from the loaded value, `C` and `V` left (R120, R122, R124). -/
def loadAcc (s : State) (v : Byte) : Result := .next ((s.setAcc v).setFlags (s.flags.setZN v))

end Sys2Proof.Machine
end

