-- ==== Sys2Proof/Machine/Alu.lean ====
section
/-!
DEFINITION. The register-direct ALU instructions AND, OR, ADDC, SUB, MUL
(41_alu_register_direct.md R93 to R97). None can fault.
-/

namespace Sys2Proof.Machine

/-- AND (R93). -/
def execAnd (r : RegIdx) (s : State) : Result := writeAlu s (aluAnd s.acc (registerOperand s r) s.flags)

/-- OR (R94). -/
def execOr (r : RegIdx) (s : State) : Result := writeAlu s (aluOr s.acc (registerOperand s r) s.flags)

/-- ADDC (R95). -/
def execAddc (r : RegIdx) (s : State) : Result := writeAlu s (aluAddc s.acc (registerOperand s r) s.flags)

/-- SUB (R96). -/
def execSub (r : RegIdx) (s : State) : Result := writeAlu s (aluSub s.acc (registerOperand s r) s.flags)

/-- MUL (R97). -/
def execMul (r : RegIdx) (s : State) : Result := writeAlu s (aluMul s.acc (registerOperand s r) s.flags)

end Sys2Proof.Machine
end

