-- ==== Sys2Proof/Machine/Branch.lean ====
section
/-!
DEFINITION. The branches BRZ, BRC, BRN, BRO (44_branch_control.md R130 to R133, R136). `PC` has already
advanced past the branch when they run (R73).
-/

namespace Sys2Proof.Machine

/-- BRZ (R130) with `BRANCH_HIGH_TARGET` as an argument. -/
def execBrzWith (high : BranchHighTarget) (s : State) : Result := takeBranchWith high s.flags.z s

/-- BRC (R131) with `BRANCH_HIGH_TARGET` as an argument. -/
def execBrcWith (high : BranchHighTarget) (s : State) : Result := takeBranchWith high s.flags.c s

/-- BRN (R132) with `BRANCH_HIGH_TARGET` as an argument. -/
def execBrnWith (high : BranchHighTarget) (s : State) : Result := takeBranchWith high s.flags.n s

/-- BRO (R133) with `BRANCH_HIGH_TARGET` as an argument. -/
def execBroWith (high : BranchHighTarget) (s : State) : Result := takeBranchWith high s.flags.v s

/-- BRZ (R130) at the decided parameter (log entry 7). -/
def execBrz (s : State) : Result := execBrzWith branchHighTarget s

/-- BRC (R131) at the decided parameter (log entry 7). -/
def execBrc (s : State) : Result := execBrcWith branchHighTarget s

/-- BRN (R132) at the decided parameter (log entry 7). -/
def execBrn (s : State) : Result := execBrnWith branchHighTarget s

/-- BRO (R133) at the decided parameter (log entry 7). -/
def execBro (s : State) : Result := execBroWith branchHighTarget s

end Sys2Proof.Machine
end

