-- ==== Sys2Proof/Machine/Control.lean ====
section
/-!
DEFINITION. NOP and STOP (44_branch_control.md R134, R135).
-/

namespace Sys2Proof.Machine

/-- NOP (R134): nothing beyond the cycle itself. -/
def execNop (s : State) : Result := .next s

/-- STOP (R135): `RUN <- HALTED`. -/
def execStop (s : State) : Result := .next (s.setRun .halted)

end Sys2Proof.Machine
end

