-- ==== Sys2Proof/Machine/Implicit.lean ====
section
/-!
DEFINITION. The implicit ALU instructions NEG, NOT, RLC, RRC (42_alu_implicit.md R110 to R113). None can
fault.
-/

namespace Sys2Proof.Machine

/-- NEG (R110). -/
def execNeg (s : State) : Result := writeAlu s (aluNeg s.acc s.flags)

/-- NOT (R111). -/
def execNot (s : State) : Result := writeAlu s (aluNot s.acc s.flags)

/-- RLC with `ROT_FILL` as an argument (R112). -/
def execRlcWith (p : RotFill) (s : State) : Result := writeAlu s (aluRlcWith p s.acc s.flags)

/-- RRC with `ROT_FILL` as an argument (R113). -/
def execRrcWith (p : RotFill) (s : State) : Result := writeAlu s (aluRrcWith p s.acc s.flags)

/-- RLC (R112) at the decided parameter (log entry 6). -/
def execRlc (s : State) : Result := execRlcWith rotFill s

/-- RRC (R113) at the decided parameter (log entry 6). -/
def execRrc (s : State) : Result := execRrcWith rotFill s

end Sys2Proof.Machine
end

