-- ==== Sys2Proof/Machine/LoadStore.lean ====
section
/-!
DEFINITION. The loads and stores LDAR, STAR, LDAA, STAA, LDAI (43_load_store.md R120 to R124). None
faults: every direct address is a cell (R125). The stores write no flag (decision D5, log entry 8).
-/

namespace Sys2Proof.Machine

/-- LDAR (R120). -/
def execLdar (r : RegIdx) (s : State) : Result := loadAcc s (registerOperand s r)

/-- STAR (R121). -/
def execStar (r : RegIdx) (s : State) : Result := .next (s.setReg r s.acc)

/-- LDAA (R122). -/
def execLdaa (a : Byte) (s : State) : Result := withDirectCell s a (loadAcc s)

/-- STAA (R123). -/
def execStaa (a : Byte) (s : State) : Result := storeDirect s a s.acc

/-- LDAI (R124). -/
def execLdai (i : Byte) (s : State) : Result := loadAcc s (immediateOperand i)

end Sys2Proof.Machine
end

