-- ==== Sys2Proof/Machine/Dispatch.lean ====
section
/-!
DEFINITION. Dispatch: one arm per constructor of Instr, each one direct call of its meaning
(40_control.md R77, R78). This is step 5 of the cycle; the rest of the cycle stands in Step.lean.
-/

namespace Sys2Proof.Machine

def exec (i : Instr) (s : State) : Host.Outcome State Fault Refusal :=
  match i with
  | .and r => Sys2Proof.Machine.execAnd r s
  | .or r => Sys2Proof.Machine.execOr r s
  | .addc r => Sys2Proof.Machine.execAddc r s
  | .sub r => Sys2Proof.Machine.execSub r s
  | .mul r => Sys2Proof.Machine.execMul r s
  | .neg => Sys2Proof.Machine.execNeg s
  | .not => Sys2Proof.Machine.execNot s
  | .rlc => Sys2Proof.Machine.execRlc s
  | .rrc => Sys2Proof.Machine.execRrc s
  | .ldar r => Sys2Proof.Machine.execLdar r s
  | .star r => Sys2Proof.Machine.execStar r s
  | .ldaa a => Sys2Proof.Machine.execLdaa a s
  | .staa a => Sys2Proof.Machine.execStaa a s
  | .ldai imm => Sys2Proof.Machine.execLdai imm s
  | .brz => Sys2Proof.Machine.execBrz s
  | .brc => Sys2Proof.Machine.execBrc s
  | .brn => Sys2Proof.Machine.execBrn s
  | .bro => Sys2Proof.Machine.execBro s
  | .nop => Sys2Proof.Machine.execNop s
  | .stop => Sys2Proof.Machine.execStop s

end Sys2Proof.Machine
end

