-- ==== Sys2Proof/Machine/Step.lean ====
section
/-!
DEFINITION. One cycle (40_control.md R71) and the placing of one instruction for the host's question.
-/

namespace Sys2Proof.Machine

/-- `step()` "performs exactly one cycle" (R80), whatever `RUN` holds (decision D15, log entry 16). -/
def step (s : State) : Host.Outcome State Fault Refusal :=
  cycleWith exec s

/-- The state with the word `w` (bits above `nbits` zero) in the two cells the next fetch reads, high byte
first (R36, R72). It stands for the load of a program from outside the machine (R161; log entry 19).
At `PC = 0xFF` there is no second cell: nothing is placed and the fetch faults (R141). -/
def State.withFetchWord (s : State) (nbits w : Nat) : State :=
  match s.mem.writeCells s.pc.toNat (wordBytes (BitVec.ofNat 16 (w % 2 ^ nbits))) with
  | some m => s.setMem m
  | none => s

end Sys2Proof.Machine
end

