-- ==== Sys2Proof/Machine/Params.lean ====
section
/-!
DEFINITION. The machine with the two decided parameters as arguments (00_scope.md R5: "kept as a model
argument"; decisions D4 and D7). Only the two rotations and the four branches depend on them.
`decidedParams` gives back `exec` and `step` (Laws/Params.lean).
-/

namespace Sys2Proof.Machine

/-- Step 5 of the cycle (R77, R78) under the parameters `p`. -/
def execWith (p : Params) (i : Instr) (s : State) : Result :=
  match i with
  | .rlc => execRlcWith p.rotFill s
  | .rrc => execRrcWith p.rotFill s
  | .brz => execBrzWith p.branchHighTarget s
  | .brc => execBrcWith p.branchHighTarget s
  | .brn => execBrnWith p.branchHighTarget s
  | .bro => execBroWith p.branchHighTarget s
  | .and _ | .or _ | .addc _ | .sub _ | .mul _ | .neg | .not => exec i s
  | .ldar _ | .star _ | .ldaa _ | .staa _ | .ldai _ | .nop | .stop => exec i s

/-- One cycle (R71, R80) under the parameters `p`. -/
def stepWith (p : Params) (s : State) : Result := cycleWith (execWith p) s

/-- The machine under the parameters `p`, in the form of the host's interface. -/
def coreWith (p : Params) : Host.Core where
  State := State
  Fault := Fault
  Refusal := Refusal
  step := stepWith p
  reset := State.reset

end Sys2Proof.Machine
end

