-- ==== Sys2Proof/Machine/HostOps.lean ====
section
/-!
DEFINITION. What the host may do between cycles (70_reset_and_hazards.md R160, R161, R166): init, step,
run, setRun, the channels, and the reads. The host has no other move (R166, U18; log entry 24).
-/

namespace Sys2Proof.Machine

/-! ## init -/

/-- Writes the words two cells apiece from `loc` on, each with the multi-cell write of R34 (R161). -/
def loadProgram (m : Memory) (loc : Nat) : List Word → Option Memory
  | [] => some m
  | w :: ws =>
    match m.writeWide loc w.toInt 16 with
    | some m' => loadProgram m' (loc + 2) ws
    | none => none

/-- `init(instructions)` (R160, R161): every item of state at its reset value and the program from cell 0
on; a program that would write past cell 255 is the fatal index error (log entries 19, 25). -/
def State.init (program : List Word) : Result :=
  match loadProgram State.reset.mem 0 program with
  | some m => .next (State.reset.setMem m)
  | none => raiseFault .indexOutOfRange

/-! ## run -/

/-- `run()` "performs cycles until run state becomes HALTED" (R81), with at most `fuel` cycles of the given
meaning; on a HALTED machine it performs none. A run that needs more than `fuel` cycles answers the state it
has reached, still RUNNING (log entry 16). -/
def runCycles (cycle : State → Result) : Nat → State → Result
  | 0, s => .next s
  | fuel + 1, s =>
    match s.run with
    | .halted => .next s
    | .running =>
      match cycle s with
      | .next t => runCycles cycle fuel t
      | .fault k => .fault k
      | .refused r => .refused r

/-- `run()` of the machine, with at most `fuel` cycles. -/
def runFor (fuel : Nat) (s : State) : Result := runCycles step fuel s

/-- `run()` under the parameters `p` (R5), with at most `fuel` cycles. -/
def runForWith (p : Params) (fuel : Nat) (s : State) : Result := runCycles (stepWith p) fuel s

/-! ## Channels and reads -/

/-- A write to the input channel (R20, R166): longer than the capacity, it is truncated to the leading
characters; it takes effect at the next `IoSync()`. -/
def State.writeInput (s : State) (codes : List CharCode) : State :=
  { s with inBuf := codes.take inCells }

/-- A read of the input channel: "the current buffer unchanged" (R20). -/
def State.readInput (s : State) : List CharCode := s.inBuf

/-- A read of the output channel (R20, R166). -/
def State.readOutput (s : State) : List Byte := s.outBuf

/-- `isRunning()` (R166). -/
def State.isRunning (s : State) : Bool := s.run == .running

/-- `setRun(b)` (R166). -/
def State.hostSetRun (s : State) (b : Bool) : State := s.setRun (if b then .running else .halted)

/-- What `getRegister` can name (R24, R166): the source's name strings are not given (N12), so a register is
named by a constructor (log entry 27). -/
inductive RegName where
  | general (r : RegIdx)
  | accumulator
  | instruction
  | programCounter
  | status
  deriving DecidableEq, Repr

/-- The width of a register (R5). -/
def RegName.width : RegName → Nat
  | .general _ => 8
  | .accumulator => 8
  | .instruction => 16
  | .programCounter => 8
  | .status => 4

/-- `getRegister` (R24, R166): a read without effect. The status register is read packed, in the open
order `SR_PACK` (R17, log entry 5). -/
def State.getRegister (s : State) : (n : RegName) → BitVec n.width
  | .general r => s.reg r
  | .accumulator => s.acc
  | .instruction => s.ir
  | .programCounter => s.pc
  | .status => s.flags.pack srPack

/-- Every register the host can name, R0 to R7 first (R24, R166). The order, and that `A`, `IR`, `PC` and
`SR` stand after them, are the model's (log entry 27). -/
def RegName.all : List RegName :=
  [.general 0, .general 1, .general 2, .general 3, .general 4, .general 5, .general 6, .general 7,
   .accumulator, .instruction, .programCounter, .status]

/-- `getRegisters()` (R24, R83, R166): a read without effect, every register beside its name, each with the
value `getRegister` gives (log entry 27). -/
def State.getRegisters (s : State) : List ((n : RegName) × BitVec n.width) :=
  RegName.all.map fun n => ⟨n, s.getRegister n⟩

/-- `getMemory()` (R47, R166): all cells in address order. -/
def State.getMemory (s : State) : List Byte := (List.range memSize).map s.mem.cell

/-! ## The host's moves -/

/-- The moves that can change the machine (R166). -/
inductive HostMove where
  | init (program : List Word)
  | step
  | run (fuel : Nat)
  | setRun (b : Bool)
  | writeInput (codes : List CharCode)
  deriving DecidableEq, Repr

/-- What a move does when a cycle is the given one, always between two cycles (R82). -/
def hostMoveBy (cycle : State → Result) (s : State) : HostMove → Result
  | .init program => State.init program
  | .step => cycle s
  | .run fuel => runCycles cycle fuel s
  | .setRun b => .next (s.hostSetRun b)
  | .writeInput codes => .next (s.writeInput codes)

/-- What a move does to the machine. -/
def hostMove (s : State) (m : HostMove) : Result := hostMoveBy Sys2Proof.Machine.step s m

/-- What a move does under the parameters `p` (R5). -/
def hostMoveWith (p : Params) (s : State) (m : HostMove) : Result := hostMoveBy (stepWith p) s m

end Sys2Proof.Machine
end

