-- ==== Sys2Proof/Machine/Assembler.lean ====
section
/-!
DEFINITION. The encoding side of the assembler (30_encoding.md R61 to R64), which is in scope as far as it
fixes mnemonics and bit layout (00_scope.md R3), and the machine-code file format through which a program
reaches `init` (R65). Text is a list of characters, so that everything here computes.
-/

namespace Sys2Proof.Machine

/-! ## One line (R61 to R63) -/

/-- Why a line is refused (R62, R64). -/
inductive AsmError where
  /-- the line is not `mnemonic [operand1] [operand2]` (R61, R64) -/
  | malformedLine
  /-- the mnemonic is in no row of the table (R63, R64) -/
  | unknownMnemonic
  /-- a needed operand is absent (R62, decision D23) -/
  | missingOperand
  /-- a register index outside `[0,7]` (R62) -/
  | invalidRegister
  /-- a direct or immediate operand that does not fit 8 bits (R62) -/
  | operandOutOfRange
  /-- a second operand, whose effect is not stated (N11, U16) -/
  | secondOperand
  deriving DecidableEq, Repr

/-- The word of a mode's operand: `OP | (register << 8)` or `OP | (operand & 0xFF)` with
`OP = opcode << 11`; implicit ignores its operand (R62, C5). -/
def encodeOperand (format : Format) (base : Word) (x : Int) : Except AsmError Word :=
  match format with
  | .implicit => .ok base
  | .register =>
    if 0 ≤ x ∧ x ≤ 7 then .ok (base ||| (BitVec.ofInt 16 x <<< 8)) else .error .invalidRegister
  | .direct =>
    if fits x 8 then .ok (base ||| (BitVec.ofInt 16 x &&& 0xFF)) else .error .operandOutOfRange
  | .immediate =>
    if fits x 8 then .ok (base ||| (BitVec.ofInt 16 x &&& 0xFF)) else .error .operandOutOfRange

/-- `OP`: the opcode in the top 5 bits (R62, C5). -/
def baseWord (op : Op) : Word := (op.opcode.setWidth 16) <<< 11

/-- The word a line emits (R62). -/
def encodeLine (l : SourceLine) : Except AsmError Word :=
  match l.operands with
  | [] => if l.op.format = .implicit then .ok (baseWord l.op) else .error .missingOperand
  | [x] => encodeOperand l.op.format (baseWord l.op) x
  | _ :: _ :: _ => .error .secondOperand

/-- The mnemonic table (R63): `AND`, `LDI` and `STOP` are the source's spellings, the other 17 the
operation names (decision D16; log entry 23). -/
def mnemonicTable : List (List Char × Op) :=
  [(['A', 'N', 'D'], .and), (['O', 'R'], .or), (['A', 'D', 'D', 'C'], .addc), (['S', 'U', 'B'], .sub),
   (['M', 'U', 'L'], .mul), (['N', 'E', 'G'], .neg), (['N', 'O', 'T'], .not), (['R', 'L', 'C'], .rlc),
   (['R', 'R', 'C'], .rrc), (['L', 'D', 'A', 'R'], .ldar)] ++
  [(['S', 'T', 'A', 'R'], .star), (['L', 'D', 'A', 'A'], .ldaa), (['S', 'T', 'A', 'A'], .staa),
   (['L', 'D', 'I'], .ldai), (['B', 'R', 'Z'], .brz), (['B', 'R', 'C'], .brc), (['B', 'R', 'N'], .brn),
   (['B', 'R', 'O'], .bro), (['N', 'O', 'P'], .nop), (['S', 'T', 'O', 'P'], .stop)]

/-- A letter in upper case; every other character as it is. -/
def upperCase (c : Char) : Char :=
  if 97 ≤ c.toNat ∧ c.toNat ≤ 122 then Char.ofNat (c.toNat - 32) else c

/-- A spelling's operation; "mnemonics are case-insensitive" (R63). -/
def lookupMnemonic (spelling : List Char) : Option Op :=
  (mnemonicTable.find? fun row => row.1 == spelling.map upperCase).map Prod.snd

/-- White space between the parts of a line: which characters count is the model's choice (log entry 23). -/
def isBlank (c : Char) : Bool := c == ' ' || c == '\t' || c == '\r'

/-- The parts of a line between white space (R61). Blanks before the first part and after the last are
dropped: R61's shape is silent on them, and accepting them is the model's choice (log entry 23). -/
def splitParts : List Char → List (List Char)
  | [] => []
  | c :: rest =>
    if isBlank c then splitParts rest
    else
      match rest with
      | [] => [[c]]
      | d :: _ =>
        if isBlank d then [c] :: splitParts rest
        else
          match splitParts rest with
          | part :: parts => (c :: part) :: parts
          | [] => [[c]]

/-- A decimal digit's value. -/
def digitValue (c : Char) : Option Nat :=
  if 48 ≤ c.toNat ∧ c.toNat ≤ 57 then some (c.toNat - 48) else none

/-- Decimal digits read on from `n`. -/
def readDigits : Nat → List Char → Option Nat
  | n, [] => some n
  | n, c :: rest =>
    match digitValue c with
    | some d => readDigits (10 * n + d) rest
    | none => none

/-- A decimal operand with an optional leading `-` (R61). -/
def readOperand : List Char → Option Int
  | [] => none
  | '-' :: c :: rest => (readDigits 0 (c :: rest)).map fun n => -(n : Int)
  | c :: rest => (readDigits 0 (c :: rest)).map fun n => (n : Int)

/-- Every operand of a line read, none when one is not a decimal number. -/
def readOperands : List (List Char) → Option (List Int)
  | [] => some []
  | p :: ps =>
    match readOperand p, readOperands ps with
    | some x, some xs => some (x :: xs)
    | _, _ => none

/-- One source line from its text: a mnemonic and at most two decimal operands (R61, R64). Where a line has
more than one error, which one is named is the model's choice: the shape's before the mnemonic's, and both
before the operand's (log entry 23). -/
def parseLine (text : List Char) : Except AsmError SourceLine :=
  match splitParts text with
  | [] => .error .malformedLine
  | spelling :: parts =>
    match readOperands parts with
    | none => .error .malformedLine
    | some xs =>
      if xs.length ≤ 2 then
        match lookupMnemonic spelling with
        | some op => .ok ⟨op, xs⟩
        | none => .error .unknownMnemonic
      else .error .malformedLine

/-- The word of one line of text. -/
def assembleLine (text : List Char) : Except AsmError Word :=
  match parseLine text with
  | .ok l => encodeLine l
  | .error e => .error e

/-! ## A program (R64) -/

/-- Assembles lines from line number `n` on: the first bad line aborts with its number and no partial
program, and the line that encodes a STOP ends the assembly without error. -/
def assembleFrom : Nat → List (List Char) → Except (Nat × AsmError) (List Word)
  | _, [] => .ok []
  | n, text :: rest =>
    match assembleLine text with
    | .error e => .error (n, e)
    | .ok w =>
      if isHalt w then .ok [w]
      else
        match assembleFrom (n + 1) rest with
        | .ok ws => .ok (w :: ws)
        | .error e => .error e

/-- Assembles a program, lines numbered from 1 (log entry 23). -/
def assemble (lines : List (List Char)) : Except (Nat × AsmError) (List Word) := assembleFrom 1 lines

/-! ## The machine-code file (R65; log entry 26) -/

/-- A hexadecimal digit's value, either case. -/
def hexValue (c : Char) : Option Nat :=
  let n := (upperCase c).toNat
  if 48 ≤ n ∧ n ≤ 57 then some (n - 48)
  else if 65 ≤ n ∧ n ≤ 70 then some (n - 55)
  else none

/-- One line, "exactly 4 hexadecimal digits", most significant first. -/
def readHexLine : List Char → Option Word
  | [a, b, c, d] =>
    match hexValue a, hexValue b, hexValue c, hexValue d with
    | some a, some b, some c, some d => some (BitVec.ofNat 16 (((a * 16 + b) * 16 + c) * 16 + d))
    | _, _, _, _ => none
  | _ => none

/-- `MAXPROG`: the most lines a machine-code file may have (R5, R65). -/
def maxFileLines : Nat := 64

/-- What scanning a file gives. -/
inductive FileScan where
  /-- more than 64 lines -/
  | tooLong
  /-- the words of the well-formed lines, in order, and the positions (from 1) of the malformed ones -/
  | scanned (words : List Word) (malformed : List Nat)
  deriving DecidableEq, Repr

/-- The lines from position `n` on: a malformed line is recorded and does not abort the scan. -/
def scanLines : Nat → List (List Char) → List Word × List Nat
  | _, [] => ([], [])
  | n, text :: rest =>
    match readHexLine text, scanLines (n + 1) rest with
    | some w, (ws, bad) => (w :: ws, bad)
    | none, (ws, bad) => (ws, n :: bad)

/-- The scan of a file (R65). -/
def scanFile (lines : List (List Char)) : FileScan :=
  if lines.length ≤ maxFileLines then
    .scanned (scanLines 1 lines).1 (scanLines 1 lines).2
  else .tooLong

/-- "a file is 'valid' iff it contains no malformed lines and terminates with a stop-opcode line". -/
def FileScan.valid : FileScan → Bool
  | .tooLong => false
  | .scanned words malformed =>
    malformed.isEmpty &&
      match words.getLast? with
      | some w => isHalt w
      | none => false

end Sys2Proof.Machine
end

