-- ==== Sys2Proof/Safety.lean ====
section
/-!
DEFINITION. What a legal state and a safe run are, in the terms the claims use.
-/

namespace Sys2Proof.Machine

/-- The invariant of the state: memory is in canonical form (addresses below 256, R30), the input buffer
holds at most its capacity, and the output buffer is empty (since reset) or holds the four mirrored bytes
(R20, R41, R42). -/
abbrev State.Inv (s : State) : Prop :=
  s.mem.wf = true ∧ s.inBuf.length ≤ inCells ∧ (s.outBuf = [] ∨ s.outBuf.length = outCells)

/-- A run from `s` ends successfully within `k` cycles (R165): `RUN` is HALTED before any fault. From a
RUNNING state that takes a cycle that executes a STOP. -/
def endsWithin (k : Nat) (s : State) : Bool :=
  match runFor k s with
  | .next t => t.run == .halted
  | .fault _ => false
  | .refused _ => false

/-- Cell `a` is one the input mirror writes: within the cells of the input range for which `InBuf` holds a
character (R41). -/
def State.mirrored (s : State) (a : Nat) : Bool :=
  decide (ioInBase ≤ a) && decide (a < ioInBase + (s.inBuf.take inCells).length)

end Sys2Proof.Machine
end

