-- ==== Sys2Proof/Certificates/Slice0/Obligations.lean ====
section
/-!
DEFINITION. The statements about the machine. Each docstring names the rule of spec/ or the sentence it
formalises. Where a statement rests on one of the spec's own decisions (D<n>) or derivations, or on the
model's choice, its docstring says so.
-/

open Sys2Proof Sys2Proof.Machine

/-! ## The shapes of the results -/

/-- The state with `A` and all four flags written: `Z` and `N` from the result, `C` and `V` as given, and
everything else unchanged. -/
def Sys2Proof.Expect.afterAlu (s : State) (r : Byte) (c v : Bool) : State :=
  { s with acc := r, flags := { z := decide (r = 0#8), c := c, n := r.getLsbD 7, v := v } }

/-- The state with `A`, `Z` and `N` written from a loaded value, and everything else unchanged. -/
def Sys2Proof.Expect.afterLoad (s : State) (x : Byte) : State :=
  { s with acc := x, flags := { s.flags with z := decide (x = 0#8), n := x.getLsbD 7 } }

/-- The flag of a branch opcode in a state, false for every other opcode. -/
def Sys2Proof.Expect.taken (opcode : BitVec 5) (f : Flags) : Bool :=
  (opcode == 16 && f.z) || (opcode == 17 && f.c) || (opcode == 18 && f.n) || (opcode == 19 && f.v)

/-! ## Encoding (30_encoding.md) -/

/-- Decoding an encoded instruction gives it back, on the word and on bytes followed by anything. -/
def Obligations.EncodedInstructionDecodes : Prop :=
  ∀ (i : Instr) (rest : List Byte),
    decodeWord (encode i) = .ok i ∧ decodeBytes (encodeBytes i ++ rest) = .ok (i, rest)

/-- Encoding a decoded word gives it back with the bits its format ignores set to 0 (R52; the assembler
writes zeros there, R62). -/
def Obligations.DecodedWordReencodes : Prop :=
  ∀ (w : Word) (i : Instr), decodeWord w = .ok i →
    encode i = w &&&
      (if i.op.format = .implicit then 0xF800#16 else if i.op.format = .register then 0xFF00#16 else 0xF8FF#16)

/-- R53: the legal opcodes, the 12 illegal ones, that validity is exactly decodability, and that it depends
on the opcode field only. -/
def Obligations.LegalOpcodeSet : Prop :=
  ∀ w : Word,
    (isValid w = true ↔ (w.extractLsb' 11 5).toNat ∈
      [0, 1, 3, 4, 5, 6, 7, 8, 9, 10, 11, 12, 13, 14, 16, 17, 18, 19, 24, 31]) ∧
    (isValid w = false ↔ (w.extractLsb' 11 5).toNat ∈ [2, 15, 20, 21, 22, 23, 25, 26, 27, 28, 29, 30]) ∧
    (isValid w = true ↔ ∃ i, decodeWord w = .ok i) ∧
    ∀ w' : Word, w'.extractLsb' 11 5 = w.extractLsb' 11 5 → isValid w' = isValid w

/-- R54: `halt` is true exactly for opcode 31, which is valid, and exactly for the words that decode to
STOP. -/
def Obligations.HaltExactlyOpcode31 : Prop :=
  ∀ w : Word,
    (isHalt w = true ↔ w.extractLsb' 11 5 = 0b11111#5) ∧
    (isHalt w = true → isValid w = true) ∧
    (isHalt w = true ↔ decodeWord w = .ok .stop)

/-- No bit outside the opcode makes a word invalid, the bits a format does not use have no effect on the
instruction decoded, and the encoder writes zeros in them (R56, its decoding side; that an instruction keeps
none of these bits is the model's choice, log entry 22). -/
def Obligations.IgnoredBitsHaveNoEffect : Prop :=
  (∀ w w' : Word, opcodeOf w = opcodeOf w' → isValid w = true → isValid w' = true) ∧
  (∀ w w' : Word, opcodeOf w = opcodeOf w' →
    (formatOf w = some .register → w.extractLsb' 8 3 = w'.extractLsb' 8 3) →
    (formatOf w = some .direct ∨ formatOf w = some .immediate → w.extractLsb' 0 8 = w'.extractLsb' 0 8) →
    decodeWord w = decodeWord w') ∧
  (∀ i : Instr,
    (i.op.format = .implicit → (encode i).extractLsb' 0 11 = 0#11) ∧
    (i.op.format = .register → (encode i).extractLsb' 0 8 = 0#8) ∧
    (i.op.format = .direct ∨ i.op.format = .immediate → (encode i).extractLsb' 8 3 = 0#3))

/-- Words written out from the encodings decode to the instructions they stand for (95_test_vectors.md
D-DEC). The opcode numbers are the spec's decision D1 (log entry 3). -/
def Obligations.WrittenOutWordsDecode : Prop :=
  decodeWord 0x7014#16 = .ok (.ldai 20) ∧ decodeWord 0x1BFF#16 = .ok (.addc 3) ∧
  decodeWord 0x5F00#16 = .ok (.star 7) ∧ decodeWord 0x37FF#16 = .ok .neg ∧
  decodeWord 0x8FFF#16 = .ok .brc ∧ decodeWord 0x6FFF#16 = .ok (.staa 255) ∧
  decodeWord 0xF800#16 = .ok .stop ∧ decodeWord 0x17FF#16 = .error (.illegalOpcode 2)

/-- R52, R77: the opcode alone selects one of four handlers, none when the word is invalid, and the decoded
instruction has that format. That the unused bits are ignored is the spec's derivation. -/
def Obligations.OpcodeSelectsFormat : Prop :=
  ∀ w : Word,
    (formatOf w =
      if (opcodeOf w).toNat ∈ [6, 7, 8, 9, 16, 17, 18, 19, 24, 31] then some .implicit
      else if (opcodeOf w).toNat ∈ [0, 1, 3, 4, 5, 10, 11] then some .register
      else if (opcodeOf w).toNat ∈ [12, 13] then some .direct
      else if (opcodeOf w).toNat = 14 then some .immediate
      else none) ∧
    ∀ i, decodeWord w = .ok i → formatOf w = some i.op.format

/-- R62: the assembler accepts exactly the operands of each mode and names the error otherwise. That a
missing operand is an error is decision D23, and that a second one is refused is U16 (log entry 23). -/
def Obligations.AssemblerOperandRanges : Prop :=
  (∀ l : SourceLine, (∃ w, encodeLine l = .ok w) ↔ l.wellFormed = true) ∧
  (∀ (op : Op) (x : Int), op.format = .register → (x < 0 ∨ 7 < x) →
    encodeLine ⟨op, [x]⟩ = .error .invalidRegister) ∧
  (∀ (op : Op) (x : Int), op.format = .direct ∨ op.format = .immediate → (x < -128 ∨ 255 < x) →
    encodeLine ⟨op, [x]⟩ = .error .operandOutOfRange) ∧
  (∀ (op : Op) (x : Int), op.format = .direct ∨ op.format = .immediate → -128 ≤ x → x ≤ 255 →
    encodeLine ⟨op, [x]⟩ = .ok (op.opcode ++ 0#3 ++ BitVec.ofInt 8 x)) ∧
  (∀ op : Op, op.format ≠ .implicit → encodeLine ⟨op, []⟩ = .error .missingOperand)

/-- Every word the assembler emits decodes, to the operation the line names, and is that instruction's own
word (R62: "Each assembled line is re-validated against the Instruction decode rules"); and the line that
writes an instruction assembles to its word. -/
def Obligations.AssembledLineDecodes : Prop :=
  (∀ (l : SourceLine) (w : Word), encodeLine l = .ok w →
    ∃ i, decodeWord w = .ok i ∧ i.op = l.op ∧ encode i = w) ∧
  ∀ i : Instr, encodeLine i.source = .ok (encode i)

/-! ## Memory (20_memory.md) -/

/-- An index outside `[0, N)` is an error, indices are not reduced, the one core access that can leave the
range is the fetch at `PC = 0xFF`, and a direct address never does (R35; the fetch's fault is decision D13,
log entry 14). -/
def Obligations.IndexOutsideMemoryIsAnError : Prop :=
  (∀ (m : Memory) (a : Nat), m.readCell a = none ↔ 256 ≤ a) ∧
  (∀ (m : Memory) (a : Nat) (v : Byte), m.writeCell a v = none ↔ 256 ≤ a) ∧
  (∀ s : State, s.fetchWord = none ↔ s.pc = 0xFF#8) ∧
  (∀ s : State, s.pc = 0xFF#8 → step s = .fault .fetchOutOfRange) ∧
  ∀ (a : Byte) (s : State), (∃ t, exec (.ldaa a) s = .next t) ∧ ∃ t, exec (.staa a) s = .next t

/-- A multi-cell read concatenates the cells, the lowest address most significant, and fails when an index
leaves memory (R32's vector; the source's integer view of it is not stated). -/
def Obligations.MultiCellReadConcatenates : Prop :=
  ∀ (m : Memory) (a k : Nat),
    (a + k ≤ 256 → ∃ v : BitVec (8 * k), m.readWide a k = some v ∧
      ∀ i, i < k → v.extractLsb' (8 * (k - 1 - i)) 8 = m.cell (a + i)) ∧
    (0 < k → 256 < a + k → m.readWide a k = none)

/-- A multi-cell write followed by a read of its cells gives the number back, and leaves every other cell
alone (R34 with the slice alignment of decision D22, log entry 21; the source's example S7 is one case). -/
def Obligations.MultiCellWriteThenRead : Prop :=
  ∀ (m : Memory) (loc n : Nat) (data : Int), m.wf = true → 0 < n → loc + cellsFor n ≤ 256 →
    -(2 ^ (n - 1) : Int) ≤ data → data < (2 ^ (n - 1) : Int) →
    ∃ (m' : Memory) (v : BitVec (8 * cellsFor n)), m.writeWide loc data n = some m' ∧
      m'.readWide loc (cellsFor n) = some v ∧ v.toInt = data ∧
      ∀ b, (b < loc ∨ loc + cellsFor n ≤ b) → m'.cell b = m.cell b

/-- R36: a word lies high byte first, the fetch returns it so, and a STAA to `a` changes the high byte of
the word at `a` and the low byte of the word at `a - 1`. -/
def Obligations.BigEndianWordsAndStores : Prop :=
  (∀ w : Word, wordBytes w = [w.extractLsb' 8 8, w.extractLsb' 0 8]) ∧
  ∀ (s : State) (w : Word), s.fetchWord = some w →
    w.extractLsb' 8 8 = s.mem.cell s.pc.toNat ∧ w.extractLsb' 0 8 = s.mem.cell (s.pc.toNat + 1) ∧
    (s.mem.wf = true → ∀ a : Byte, ∃ t, exec (.staa a) s = .next t ∧
      t.fetchWord = some (
        if a.toNat = s.pc.toNat then s.acc ++ w.extractLsb' 0 8
        else if a.toNat = s.pc.toNat + 1 then w.extractLsb' 8 8 ++ s.acc
        else w))

/-! ## The I/O channels -/

/-- The input mirror writes the buffered characters' codes, truncated to 8 bits, from the base upward, and
nothing else (R41; that cells without a character are left alone is decision D11, log entry 12). -/
def Obligations.InputMirrorCopiesCharacters : Prop :=
  ∀ (s : State) (base : Nat), s.mem.wf = true → base + 2 ≤ 256 →
    s.inputMirrorAt base = { s with mem := (s.inputMirrorAt base).mem } ∧
    (∀ j, j < 2 → (h : j < s.inBuf.length) →
      (s.inputMirrorAt base).mem.cell (base + j) = BitVec.ofNat 8 s.inBuf[j]) ∧
    ∀ b, (b < base ∨ base + 2 ≤ b ∨ base + s.inBuf.length ≤ b) →
      (s.inputMirrorAt base).mem.cell b = s.mem.cell b

/-- R42: the output mirror reads the four cells into the output buffer and changes no cell and no
register. -/
def Obligations.OutputMirrorReadsFourCells : Prop :=
  ∀ (s : State) (base : Nat),
    s.outputMirrorAt base = { s with
      outBuf := [s.mem.cell base, s.mem.cell (base + 1), s.mem.cell (base + 2), s.mem.cell (base + 3)] }

/-- After every cycle the output buffer shows the output range and the input range shows the buffered
characters (R41 to R43, R163 points 4 and 5; the base addresses are open, log entry 4). -/
def Obligations.CycleLeavesChannelsMirrored : Prop :=
  ∀ s t : State, s.mem.wf = true → step s = .next t →
    t.inBuf = s.inBuf ∧
    t.outBuf = [t.mem.cell ioOutBase, t.mem.cell (ioOutBase + 1), t.mem.cell (ioOutBase + 2),
      t.mem.cell (ioOutBase + 3)] ∧
    ∀ j, j < 2 → (h : j < s.inBuf.length) → t.mem.cell (ioInBase + j) = BitVec.ofNat 8 s.inBuf[j]

/-! ## The cycle (40_control.md) -/

/-- When the two cells at `PC` decode to an instruction, the step is that instruction's `exec` from the
state with `PC` advanced by 2, `IR` loaded and the channels mirrored once, and the channels mirrored again
after it (R71). -/
def Obligations.StepRunsDecodedInstruction : Prop :=
  ∀ (s : State) (i : Instr), s.pc ≠ 0xFF#8 →
    decodeBytes [s.mem.cell s.pc.toNat, s.mem.cell (s.pc.toNat + 1)] = .ok (i, []) →
    i.wellFormed = true ∧
    step s = finishCycle (exec i
      (State.ioSync { s with
        pc := s.pc + 2
        ir := s.mem.cell s.pc.toNat ++ s.mem.cell (s.pc.toNat + 1) })) ∧
    ∀ u : State, finishCycle (.next u) = .next u.ioSync

/-- A step faults exactly when it starts with `PC = 0xFF`, and then with `FetchOutOfRange` (R141, whose
reason is decision D13); it never refuses, and it answers a next state from every other `PC`. -/
def Obligations.StepFaultsExactlyAtLastCell : Prop :=
  (∀ (s : State) (k : Fault), step s = .fault k ↔ s.pc = 0xFF#8 ∧ k = .fetchOutOfRange) ∧
  (∀ (s : State) (r : Refusal), step s ≠ .refused r) ∧
  ∀ s : State, s.pc ≠ 0xFF#8 → ∃ t, step s = .next t

/-- A fetched word with an illegal opcode advances `PC`, loads `IR`, mirrors the channels once, and does
nothing else (R58, R76; that the second mirror does not run is decision D12, log entry 13). -/
def Obligations.InvalidWordIsSkipped : Prop :=
  ∀ (s : State) (w : Word), s.fetchWord = some w →
    (opcodeOf w).toNat ∈ [2, 15, 20, 21, 22, 23, 25, 26, 27, 28, 29, 30] →
    step s = .next (State.ioSync { s with pc := s.pc + 2, ir := w })

/-- R74: after every cycle `IR` holds the fetched word, all 16 bits, valid or not. -/
def Obligations.InstructionRegisterHoldsFetchedWord : Prop :=
  ∀ s t : State, step s = .next t →
    s.fetchWord = some t.ir ∧ t.ir = s.mem.cell s.pc.toNat ++ s.mem.cell (s.pc.toNat + 1)

/-- Every fetched word, valid or not, advances `PC` by 2 modulo 256, and a taken branch overwrites the
advanced value (R73, R136; the branch opcodes are decision D1 and that every target is accepted is decision
D7, log entries 3, 7). -/
def Obligations.PcAdvancesByTwoUnlessBranchTaken : Prop :=
  ∀ (s t : State) (w : Word), s.fetchWord = some w → step s = .next t →
    t.pc = if Expect.taken (opcodeOf w) s.flags then s.regs[7] else BitVec.ofNat 8 ((s.pc.toNat + 2) % 256)

/-- Two run states, RUNNING to HALTED only by the stop opcode, no way back inside the core, and back only by
the host's `setRun(true)` or a new `init` (R70; that `init` leaves RUNNING is decision D8, log entry 1). -/
def Obligations.RunStateChangesOnlyByStop : Prop :=
  (∀ r : RunState, r = .running ∨ r = .halted) ∧
  (∀ (s t : State) (w : Word), s.fetchWord = some w → step s = .next t →
    t.run = if opcodeOf w = 31 then .halted else s.run) ∧
  (∀ s : State, (s.hostSetRun true).run = .running) ∧
  (∀ (ws : List Word) (t : State), State.init ws = .next t → t.run = .running) ∧
  ∀ (s t : State) (m : HostMove), s.run = .halted → t.run = .running → hostMove s m = .next t →
    m = .setRun true ∨ ∃ ws, m = .init ws

/-- STAR is the only instruction that writes a general register, and it writes only the one it names (R11,
R121; its opcode number is decision D1, log entry 3). -/
def Obligations.OnlyStarWritesRegisters : Prop :=
  ∀ (s t : State) (w : Word), s.fetchWord = some w → step s = .next t →
    ∀ k : RegIdx, t.regs[k.val] = if opcodeOf w = 11 ∧ k = rfOf w then s.acc else s.regs[k.val]

/-- Memory changes in a cycle only where STAA stores and where the input mirror writes (R86, a derived
table; the input range is open, log entry 4; STAA's opcode number is decision D1, log entry 3). -/
def Obligations.MemoryChangesOnlyByStoreAndMirror : Prop :=
  ∀ (s t : State) (w : Word), s.mem.wf = true → s.fetchWord = some w → step s = .next t →
    ∀ b : Nat, s.mirrored b = false →
      t.mem.cell b = if opcodeOf w = 13 ∧ (opnd8Of w).toNat = b then s.acc else s.mem.cell b

/-- Which cycle writes which flag (R18, a derived table; its rows for stores, branches, NOP, STOP and
invalid words are decision D5 and the opcode numbers decision D1, log entries 3, 8). -/
def Obligations.FlagsWrittenPerOpcode : Prop :=
  ∀ (s t : State) (w : Word), s.fetchWord = some w → step s = .next t →
    ((opcodeOf w).toNat ∈ [0, 1, 3, 4, 5, 6, 7, 8, 9, 10, 12, 14] →
      t.flags.z = decide (t.acc = 0#8) ∧ t.flags.n = t.acc.getLsbD 7) ∧
    ((opcodeOf w).toNat ∈ [0, 1, 5, 6, 7] → t.flags.c = false ∧ t.flags.v = false) ∧
    ((opcodeOf w).toNat ∈ [8, 9] → t.flags.v = false) ∧
    ((opcodeOf w).toNat ∈ [10, 12, 14] → t.flags.c = s.flags.c ∧ t.flags.v = s.flags.v) ∧
    ((opcodeOf w).toNat ∉ [0, 1, 3, 4, 5, 6, 7, 8, 9, 10, 12, 14] → t.flags = s.flags)

/-- `Z` and `N` are never both 1 after a step from a state in which they are not (R91: "`Z` and `N` are
never both 1"). -/
def Obligations.StepKeepsZeroAndNegativeExclusive : Prop :=
  ∀ s t : State, (s.flags.z && s.flags.n) = false → step s = .next t → (t.flags.z && t.flags.n) = false

/-- A step keeps the legal states: memory canonical with every address below 256, the buffers within their
capacities (R20, R30, R42). -/
def Obligations.StepKeepsLegalStates : Prop :=
  ∀ s t : State, s.Inv → step s = .next t → t.Inv

/-- Every move of the host, `init` and `run` among them, keeps the legal states (R166). -/
def Obligations.HostMovesKeepLegalStates : Prop :=
  ∀ (s t : State) (m : HostMove), s.Inv → hostMove s m = .next t → t.Inv

/-- The state after reset is legal, and `Z` and `N` are not both 1 in it. -/
def Obligations.ResetIsLegal : Prop :=
  State.reset.Inv ∧ (State.reset.flags.z && State.reset.flags.n) = false

/-- The values after reset (R22). `PC` is derived from the source; every other value is the spec's decision
D8 (log entries 1 and 2). -/
def Obligations.ResetValues : Prop :=
  State.reset.pc = 0x00#8 ∧ (∀ k : RegIdx, State.reset.regs[k.val] = 0x00#8) ∧ State.reset.acc = 0x00#8 ∧
  State.reset.ir = 0x0000#16 ∧ State.reset.flags = ⟨false, false, false, false⟩ ∧
  State.reset.run = .running ∧ (∀ a, State.reset.mem.cell a = 0x00#8) ∧ State.reset.inBuf = [] ∧
  State.reset.outBuf = []

/-- From an even `PC` with an even `x[7]` a step answers a next state, and its `PC` is even (R141:
execution that never branches to an odd address keeps `PC` even and never faults; the spec derives it). -/
def Obligations.EvenPcStaysEvenAndNeverFaults : Prop :=
  ∀ s : State, s.pc.getLsbD 0 = false → s.regs[7].getLsbD 0 = false →
    ∃ t, step s = .next t ∧ t.pc.getLsbD 0 = false

/-- A step does the same whatever `RUN` holds: with `RUN` replaced before it, the result differs in `RUN`
alone, and not at all when the word is a STOP (R80, decision D15, log entry 16). -/
def Obligations.StepIgnoresRunState : Prop :=
  ∀ (s t : State) (w : Word) (r : RunState), s.fetchWord = some w → step s = .next t →
    step (s.setRun r) = .next (if opcodeOf w = 31 then t else t.setRun r)

/-- `run()` on a HALTED machine performs no cycle, and on a RUNNING one its first cycle is a step (R81;
decision D15). The bound on the cycles is the model's (log entry 16). -/
def Obligations.RunCyclesWhileRunning : Prop :=
  (∀ (k : Nat) (s : State), s.run = .halted → runFor k s = .next s) ∧
  (∀ (k : Nat) (s t : State), s.run = .running → step s = .next t → runFor (k + 1) s = runFor k t) ∧
  ∀ (k : Nat) (s : State) (f : Fault), s.run = .running → step s = .fault f → runFor (k + 1) s = .fault f

/-- A run from a RUNNING state that ends HALTED ended in a cycle that executed a STOP: that cycle's word is
in `IR`, `PC` is the address after it, and `OutBuf` mirrors the output range (R165). -/
def Obligations.RunEndsAtStop : Prop :=
  ∀ (k : Nat) (s t : State), s.run = .running → runFor k s = .next t → t.run = .halted →
    ∃ u : State, u.run = .running ∧ step u = .next t ∧ u.fetchWord = some t.ir ∧ opcodeOf t.ir = 31 ∧
      t.pc = u.pc + 2 ∧
      t.outBuf = [t.mem.cell ioOutBase, t.mem.cell (ioOutBase + 1), t.mem.cell (ioOutBase + 2),
        t.mem.cell (ioOutBase + 3)] ∧
      ∃ j, j < k ∧ runFor j s = .next u

/-- `init` gives the reset state with word `i` at cells `2i` and `2i+1`, high byte first, and zero in every
other cell; a program of more than 128 words is the fatal index error (R160, R161; the placement is decision
D9 and the zeros D8, log entries 2, 19, 25). -/
def Obligations.InitLoadsProgram : Prop :=
  ∀ ws : List Word,
    (ws.length ≤ 128 → ∃ m : Memory, State.init ws = .next { State.reset with mem := m } ∧
      (∀ i, (h : i < ws.length) →
        m.cell (2 * i) = ws[i].extractLsb' 8 8 ∧ m.cell (2 * i + 1) = ws[i].extractLsb' 0 8) ∧
      ∀ b, 2 * ws.length ≤ b → m.cell b = 0x00#8) ∧
    (128 < ws.length → State.init ws = .fault .indexOutOfRange)

/-- A write to the input channel keeps the leading 2 characters, a read returns the buffer, and no step
changes it (R20, R166; the capacity is the spec's derivation, log entry 18). -/
def Obligations.InputBufferKeepsLeadingCharacters : Prop :=
  (∀ (s : State) (cs : List CharCode), (s.writeInput cs).readInput = cs.take 2 ∧
    { s.writeInput cs with inBuf := s.inBuf } = s) ∧
  ∀ s t : State, step s = .next t → t.readInput = s.readInput

/-- The packed status register has the two layouts of R17, and one of them, the same in every state, is what
the host reads: the one that the open parameter `SR_PACK` selects (decision D3, log entry 5). -/
def Obligations.PackedStatusRegister : Prop :=
  (∀ f : Flags,
    (f.pack .zcnv).toNat = 8 * f.z.toNat + 4 * f.c.toNat + 2 * f.n.toNat + f.v.toNat ∧
    (f.pack .vncz).toNat = 8 * f.v.toNat + 4 * f.n.toNat + 2 * f.c.toNat + f.z.toNat) ∧
  (∀ s : State, s.getRegister .status = s.flags.pack srPack) ∧
  ((∀ s : State, s.getRegister .status = s.flags.pack .zcnv) ∨
    ∀ s : State, s.getRegister .status = s.flags.pack .vncz)

/-! ## The flag engine (41_alu_register_direct.md) -/

/-- R91: `SetZN(v)` writes `Z` and `N` from the value and no other flag, and never sets both. -/
def Obligations.SetZNWritesZeroAndNegative : Prop :=
  ∀ (f : Flags) (x : Byte),
    ((f.setZN x).z = true ↔ x = 0#8) ∧ ((f.setZN x).n = x.getLsbD 7) ∧ (f.setZN x).c = f.c ∧
    (f.setZN x).v = f.v ∧ ((f.setZN x).z && (f.setZN x).n) = false

/-- R92: `ClearCV()` forces `C` and `V` false and nothing else, and AND, OR, MUL, NOT and NEG leave both
false whatever their operands. -/
def Obligations.ClearCVForcesCarryAndOverflowFalse : Prop :=
  (∀ f : Flags, f.clearCV = { f with c := false, v := false }) ∧
  ∀ (i : Instr) (s : State), i.op ∈ [.and, .or, .mul, .not, .neg] →
    ∃ t, exec i s = .next t ∧ t.flags.c = false ∧ t.flags.v = false

/-! ## The ALU instructions -/

/-- AND, with its encoding, its result, its flags and everything else unchanged (R93; the opcode number is
decision D1, log entry 3). -/
def Obligations.AndResult : Prop :=
  (∀ w : Word, w.extractLsb' 11 5 = 0b00000#5 → decodeWord w = .ok (.and (w.extractLsb' 8 3).toFin)) ∧
  ∀ (r : RegIdx) (s : State),
    exec (.and r) s = .next (Expect.afterAlu s (s.acc &&& s.regs[r.val]) false false)

/-- OR, with its encoding, its result, its flags and everything else unchanged (R94; the opcode number is
decision D1, log entry 3). -/
def Obligations.OrResult : Prop :=
  (∀ w : Word, w.extractLsb' 11 5 = 0b00001#5 → decodeWord w = .ok (.or (w.extractLsb' 8 3).toFin)) ∧
  ∀ (r : RegIdx) (s : State),
    exec (.or r) s = .next (Expect.afterAlu s (s.acc ||| s.regs[r.val]) false false)

/-- ADDC, with its encoding; the carry is set iff the 9-bit sum is at least 256, the overflow by the
same-sign rule (R95; the opcode number is decision D1, log entry 3). -/
def Obligations.AddcResult : Prop :=
  (∀ w : Word, w.extractLsb' 11 5 = 0b00011#5 → decodeWord w = .ok (.addc (w.extractLsb' 8 3).toFin)) ∧
  ∀ (r : RegIdx) (s : State) (t : Nat) (x : Byte),
    t = s.acc.toNat + s.regs[r.val].toNat + s.flags.c.toNat → x = BitVec.ofNat 8 t →
    exec (.addc r) s = .next (Expect.afterAlu s x (decide (256 ≤ t))
      (decide (s.acc.getLsbD 7 = s.regs[r.val].getLsbD 7 ∧ x.getLsbD 7 ≠ s.acc.getLsbD 7)))

/-- ADDC's overflow equals true signed overflow of `s8(a) + s8(b) + cin` for all inputs (R95, the spec's
derivation). -/
def Obligations.AddcOverflowIsSignedOverflow : Prop :=
  ∀ (r : RegIdx) (s : State), ∃ t, exec (.addc r) s = .next t ∧
    (t.flags.v = true ↔
      s.acc.toInt + s.regs[r.val].toInt + (s.flags.c.toNat : Int) < -128 ∨
      127 < s.acc.toInt + s.regs[r.val].toInt + (s.flags.c.toNat : Int)) ∧
    (t.flags.v = false → t.acc.toInt = s.acc.toInt + s.regs[r.val].toInt + (s.flags.c.toNat : Int))

/-- SUB: the carry is the SIGNED less-than and the overflow the addition's same-sign rule on
`(acc, op, result)` (R96). That the carry-in is not used and that the result is 8 bits are decisions D6 and
D24 (log entry 9). -/
def Obligations.SubResult : Prop :=
  ∀ (r : RegIdx) (s : State) (x : Byte), x = s.acc - s.regs[r.val] →
    exec (.sub r) s = .next (Expect.afterAlu s x (decide (s.acc.toInt < s.regs[r.val].toInt))
      (decide (s.acc.getLsbD 7 = s.regs[r.val].getLsbD 7 ∧ x.getLsbD 7 ≠ s.acc.getLsbD 7)))

/-- MUL, with its encoding: the low nibbles, unsigned; the product never exceeds `0xE1` (R97; the opcode
number is decision D1, log entry 3). -/
def Obligations.MulResult : Prop :=
  (∀ w : Word, w.extractLsb' 11 5 = 0b00101#5 → decodeWord w = .ok (.mul (w.extractLsb' 8 3).toFin)) ∧
  ∀ (r : RegIdx) (s : State),
    (s.acc.toNat % 16) * (s.regs[r.val].toNat % 16) ≤ 0xE1 ∧
    exec (.mul r) s = .next (Expect.afterAlu s
      (BitVec.ofNat 8 ((s.acc.toNat % 16) * (s.regs[r.val].toNat % 16))) false false)

/-- NEG: two's-complement negation in 8 bits (R110; that the result is truncated is decision D19, log
entry 10). -/
def Obligations.NegResult : Prop :=
  ∀ s : State, exec .neg s = .next (Expect.afterAlu s (0#8 - s.acc) false false)

/-- NOT, with its encoding; `N` afterwards is the complement of bit 7 before (R111; the opcode number is
decision D1, log entry 3). -/
def Obligations.NotResult : Prop :=
  (∀ w : Word, w.extractLsb' 11 5 = 0b00111#5 → decodeWord w = .ok .not) ∧
  ∀ s : State, exec .not s = .next (Expect.afterAlu s (~~~s.acc) false false) ∧
    (~~~s.acc).getLsbD 7 = !(s.acc.getLsbD 7)

/-- RLC and RRC, with their encodings, rotate `A` through the carry by one bit (R112, R113; that the carry
enters is decision D4, `ROT_FILL = carry_in`, and the opcode numbers are decision D1, log entries 6, 3). -/
def Obligations.RotateResults : Prop :=
  (∀ w : Word, w.extractLsb' 11 5 = 0b01000#5 → decodeWord w = .ok .rlc) ∧
  (∀ w : Word, w.extractLsb' 11 5 = 0b01001#5 → decodeWord w = .ok .rrc) ∧
  ∀ s : State,
    exec .rlc s = .next (Expect.afterAlu s
      ((s.acc <<< 1) ||| (if s.flags.c then 0x01#8 else 0x00#8)) (s.acc.getLsbD 7) false) ∧
    exec .rrc s = .next (Expect.afterAlu s
      ((s.acc >>> 1) ||| (if s.flags.c then 0x80#8 else 0x00#8)) (s.acc.getLsbD 0) false)

/-- What the source fixes of the rotations, whatever bit enters: the seven bits that move, the bit that
leaves into `C`, `V = 0`, and `Z`, `N` from the result (R112, R113, "Whatever `ROT_FILL` is"). -/
def Obligations.RotatesWhateverTheFill : Prop :=
  ∀ (p : RotFill) (a : Byte) (f : Flags),
    (aluRlcWith p a f).result.extractLsb' 1 7 = a.extractLsb' 0 7 ∧
    (aluRlcWith p a f).flags.c = a.getLsbD 7 ∧ (aluRlcWith p a f).flags.v = false ∧
    (aluRlcWith p a f).flags.z = decide ((aluRlcWith p a f).result = 0#8) ∧
    (aluRlcWith p a f).flags.n = (aluRlcWith p a f).result.getLsbD 7 ∧
    (aluRrcWith p a f).result.extractLsb' 0 7 = a.extractLsb' 1 7 ∧
    (aluRrcWith p a f).flags.c = a.getLsbD 0 ∧ (aluRrcWith p a f).flags.v = false ∧
    (aluRrcWith p a f).flags.z = decide ((aluRrcWith p a f).result = 0#8) ∧
    (aluRrcWith p a f).flags.n = (aluRrcWith p a f).result.getLsbD 7

/-- RRC undoes RLC and RLC undoes RRC on `A` and `C` (R113, under decision D4, log entry 6). -/
def Obligations.RotationsUndoEachOther : Prop :=
  (∀ s t u : State, exec .rlc s = .next t → exec .rrc t = .next u → u.acc = s.acc ∧ u.flags.c = s.flags.c) ∧
  ∀ s t u : State, exec .rrc s = .next t → exec .rlc t = .next u → u.acc = s.acc ∧ u.flags.c = s.flags.c

/-! ## Loads and stores (43_load_store.md) -/

/-- The direct address is the byte read signed with 256 added when it is negative, which is its
unsigned reading, and never leaves memory (R125; the unsigned reading is the spec's derivation). -/
def Obligations.DirectAddressIsUnsignedByte : Prop :=
  ∀ a : Byte, ((directAddr a : Int) = if a.toInt < 0 then a.toInt + 256 else a.toInt) ∧
    directAddr a = a.toNat ∧ directAddr a < 256

/-- LDAR, with its encoding; the register and `C`, `V` are unchanged (R120; the opcode number is decision D1,
log entry 3). -/
def Obligations.LdarResult : Prop :=
  (∀ w : Word, w.extractLsb' 11 5 = 0b01010#5 → decodeWord w = .ok (.ldar (w.extractLsb' 8 3).toFin)) ∧
  ∀ (r : RegIdx) (s : State), exec (.ldar r) s = .next (Expect.afterLoad s s.regs[r.val])

/-- LDAA, with its encoding; the cell is the one the operand byte names unsigned (R122; the opcode number is
decision D1, log entry 3). -/
def Obligations.LdaaResult : Prop :=
  (∀ w : Word, w.extractLsb' 11 5 = 0b01100#5 → decodeWord w = .ok (.ldaa (w.extractLsb' 0 8))) ∧
  ∀ (a : Byte) (s : State), exec (.ldaa a) s = .next (Expect.afterLoad s (s.mem.cell a.toNat))

/-- LDAI, with its encoding; the 8 bits are moved as they are, and the two decimal spellings of one byte,
unsigned and signed, assemble to the same word (R124; that the bits are moved as they are is decision D18,
log entry 11). -/
def Obligations.LdaiResult : Prop :=
  (∀ w : Word, w.extractLsb' 11 5 = 0b01110#5 → decodeWord w = .ok (.ldai (w.extractLsb' 0 8))) ∧
  (∀ (i : Byte) (s : State), exec (.ldai i) s = .next (Expect.afterLoad s i)) ∧
  ∀ i : Byte, encodeLine ⟨.ldai, [(i.toNat : Int)]⟩ = encodeLine ⟨.ldai, [i.toInt]⟩

/-- STAR writes `A` to the register it names and nothing else (R121; that no flag is written is decision D5,
log entry 8). -/
def Obligations.StarResult : Prop :=
  ∀ (r : RegIdx) (s : State), ∃ t, exec (.star r) s = .next t ∧ t = { s with regs := t.regs } ∧
    ∀ k : RegIdx, t.regs[k.val] = if k = r then s.acc else s.regs[k.val]

/-- STAA writes `A` to the cell the operand byte names and changes nothing else (R123; that no flag is
written is decision D5, log entry 8). The stored address is the one the meaning computes, `directAddr a`. -/
def Obligations.StaaResultAndFrame : Prop :=
  ∀ (a : Byte) (s : State), ∃ t, exec (.staa a) s = .next t ∧ t = { s with mem := t.mem } ∧
    (s.mem.wf = true → t.mem.wf = true ∧ directAddr a = a.toNat ∧ t.mem.cell (directAddr a) = s.acc ∧
      ∀ b, b ≠ directAddr a → t.mem.cell b = s.mem.cell b)

/-- The frame of the 19 instructions that store nothing: every byte of memory, `IR` and both buffers are
unchanged; the registers too but for STAR's own; `A` and the flags too but for the ALU operations and the
loads; `PC` but for the branches; `RUN` but for STOP (R86, a derived table; D5 for the flags). -/
def Obligations.NonStoringFrame : Prop :=
  ∀ (i : Instr) (s t : State), (∀ a, i ≠ .staa a) → exec i s = .next t →
    (∀ b, t.mem.cell b = s.mem.cell b) ∧ t.mem = s.mem ∧ t.ir = s.ir ∧ t.inBuf = s.inBuf ∧
    t.outBuf = s.outBuf ∧
    (∀ k : RegIdx, i ≠ .star k → t.regs[k.val] = s.regs[k.val]) ∧
    (i.op ∈ [.star, .brz, .brc, .brn, .bro, .nop, .stop] → t.acc = s.acc ∧ t.flags = s.flags) ∧
    (i.op ∈ [.ldar, .ldaa, .ldai] → t.flags.c = s.flags.c ∧ t.flags.v = s.flags.v) ∧
    (i.op ∉ [.brz, .brc, .brn, .bro] → t.pc = s.pc) ∧
    (i.op ≠ .stop → t.run = s.run)

/-! ## Branches and control (44_branch_control.md) -/

/-- The four branches copy `x[7]` into `PC` when their flag is set and do nothing otherwise (R130 to R133,
R136). That they write no flag is decision D5 and that every target is accepted is decision D7 (log entries
7, 8). -/
def Obligations.BranchResults : Prop :=
  ∀ s : State,
    exec .brz s = .next (if s.flags.z then { s with pc := s.regs[7] } else s) ∧
    exec .brc s = .next (if s.flags.c then { s with pc := s.regs[7] } else s) ∧
    exec .brn s = .next (if s.flags.n then { s with pc := s.regs[7] } else s) ∧
    exec .bro s = .next (if s.flags.v then { s with pc := s.regs[7] } else s)

/-- NOP does nothing itself, and its cycle advances `PC`, loads `IR` and mirrors the channels twice (R134;
its silence on the flags is decision D5 and its opcode number decision D1, log entries 3, 8). -/
def Obligations.NopResult : Prop :=
  (∀ s : State, exec .nop s = .next s) ∧
  ∀ (s : State) (w : Word), s.fetchWord = some w → opcodeOf w = 24 →
    step s = .next (State.ioSync (State.ioSync { s with pc := s.pc + 2, ir := w }))

/-- STOP sets `RUN` to HALTED and does nothing else, on a HALTED machine too, and every word with opcode 31
is STOP (R135; its silence on the flags is decision D5, log entry 8). -/
def Obligations.StopResult : Prop :=
  (∀ s : State, exec .stop s = .next { s with run := .halted }) ∧
  ∀ w : Word, 0xF800 ≤ w.toNat → decodeWord w = .ok .stop
end

