-- ==== Sys2Proof/Laws/Decode.lean ====
section
/-!
SUPPORT. What the decoder's and the encoder's parts compute, as numbers; later proofs cite these and do not
unfold bit extraction.
-/

namespace Sys2Proof

/-- Two words side by side as a number. -/
theorem append_toNat {m n : Nat} (a : BitVec m) (b : BitVec n) :
    (a ++ b).toNat = a.toNat * 2 ^ n + b.toNat := by
  rw [BitVec.toNat_append, ← Nat.shiftLeft_add_eq_or_of_lt b.isLt, Nat.shiftLeft_eq]

theorem opcodeOf_toNat (w : Word) : (opcodeOf w).toNat = w.toNat / 2048 := by
  have := w.isLt
  simp only [opcodeOf, BitVec.extractLsb'_toNat, Nat.shiftRight_eq_div_pow]
  omega

theorem rfOf_val (w : Word) : (rfOf w).val = w.toNat / 256 % 8 := by
  show (w.extractLsb' 8 3).toNat = _
  simp [BitVec.extractLsb'_toNat, Nat.shiftRight_eq_div_pow]

theorem opnd8Of_toNat (w : Word) : (opnd8Of w).toNat = w.toNat % 256 := by
  simp [opnd8Of, BitVec.extractLsb'_toNat]

/-- The word of an instruction as a number: its three fields (R51, R62). -/
theorem encode_toNat (i : Instr) :
    (encode i).toNat = i.op.opcode.toNat * 2048 + i.rfField.toNat * 256 + i.opnd8Field.toNat := by
  show (i.op.opcode ++ i.rfField ++ i.opnd8Field).toNat = _
  rw [append_toNat, append_toNat]
  omega

/-- The opcode map read forward and back. -/
theorem opOf_opcode (op : Op) : opOf op.opcode = some op := by cases op <;> rfl

theorem opcode_of_opOf (o : BitVec 5) (op : Op) (h : opOf o = some op) : op.opcode = o := by
  revert o op; decide

/-- When the decoder answers an instruction. -/
theorem decodeWord_ok_iff (w : Word) (i : Instr) :
    decodeWord w = .ok i ↔ ∃ op, opOf (opcodeOf w) = some op ∧ op.withOperands w = i := by
  unfold decodeWord
  split <;> simp_all

/-- When the decoder refuses a word. -/
theorem decodeWord_error_iff (w : Word) (e : DecodeError) :
    decodeWord w = .error e ↔ opOf (opcodeOf w) = none ∧ e = .illegalOpcode (opcodeOf w) := by
  unfold decodeWord
  cases opOf (opcodeOf w) <;> simp [eq_comm]

/-- The decoder keeps the operation. -/
theorem withOperands_op (op : Op) (w : Word) : (op.withOperands w).op = op := by cases op <;> rfl

/-- The two cells of a word side by side are the word. -/
theorem wordBytes_join (w : Word) : (w.extractLsb' 8 8 ++ w.extractLsb' 0 8 : BitVec 16) = w := by
  apply BitVec.eq_of_toNat_eq
  have := w.isLt
  rw [append_toNat]
  simp only [BitVec.extractLsb'_toNat, Nat.shiftRight_eq_div_pow]
  omega

end Sys2Proof
end

