-- ==== Sys2Proof/Laws/Host.lean ====
section
/-!
SUPPORT. What the host's moves and reads answer (Machine/HostOps.lean; 10_state.md R24, 70_reset_and_hazards.md R166).
-/

namespace Sys2Proof.Machine

/-! ## Runs and moves -/

@[simp] theorem runFor_zero (s : State) : runFor 0 s = .next s := rfl

/-- One cycle of a run taken off its front. -/
theorem runFor_succ (k : Nat) (s : State) :
    runFor (k + 1) s =
      match s.run with
      | .halted => .next s
      | .running =>
        match step s with
        | .next t => runFor k t
        | .fault f => .fault f
        | .refused r => .refused r := rfl

@[simp] theorem hostMove_init (s : State) (ws : List Word) : hostMove s (.init ws) = State.init ws := rfl
@[simp] theorem hostMove_step (s : State) : hostMove s .step = step s := rfl
@[simp] theorem hostMove_run (s : State) (k : Nat) : hostMove s (.run k) = runFor k s := rfl
@[simp] theorem hostMove_setRun (s : State) (b : Bool) : hostMove s (.setRun b) = .next (s.hostSetRun b) := rfl
@[simp] theorem hostMove_writeInput (s : State) (cs : List CharCode) :
    hostMove s (.writeInput cs) = .next (s.writeInput cs) := rfl

/-! ## Reads -/

/-- The list of names leaves no register out. -/
theorem RegName.mem_all (n : RegName) : n ∈ RegName.all := by
  cases n with
  | general r => revert r; decide
  | accumulator => decide
  | instruction => decide
  | programCounter => decide
  | status => decide

/-- No register is listed twice. -/
theorem RegName.nodup_all : RegName.all.Nodup := by decide

/-- A named value is among those `getRegisters` answers exactly when `getRegister` gives it. -/
theorem State.mem_getRegisters (s : State) (n : RegName) (v : BitVec n.width) :
    (⟨n, v⟩ : (n : RegName) × BitVec n.width) ∈ s.getRegisters ↔ v = s.getRegister n := by
  constructor
  · intro h
    obtain ⟨m, -, hm⟩ := List.mem_map.mp h
    cases hm
    rfl
  · rintro rfl
    exact List.mem_map.mpr ⟨n, RegName.mem_all n, rfl⟩

end Sys2Proof.Machine
end

