-- ==== Sys2Proof/Laws/State.lean ====
section
/-!
SUPPORT. What each update of the state does to each field, true by definition; no later proof unfolds a
record update.
-/

namespace Sys2Proof.Machine

@[simp] theorem State.setReg_regs (s : State) (r : RegIdx) (v : Byte) : (s.setReg r v).regs = s.regs.set r.val v := rfl
@[simp] theorem State.setReg_acc (s : State) (r : RegIdx) (v : Byte) : (s.setReg r v).acc = s.acc := rfl
@[simp] theorem State.setReg_pc (s : State) (r : RegIdx) (v : Byte) : (s.setReg r v).pc = s.pc := rfl
@[simp] theorem State.setReg_ir (s : State) (r : RegIdx) (v : Byte) : (s.setReg r v).ir = s.ir := rfl
@[simp] theorem State.setReg_flags (s : State) (r : RegIdx) (v : Byte) : (s.setReg r v).flags = s.flags := rfl
@[simp] theorem State.setReg_run (s : State) (r : RegIdx) (v : Byte) : (s.setReg r v).run = s.run := rfl
@[simp] theorem State.setReg_mem (s : State) (r : RegIdx) (v : Byte) : (s.setReg r v).mem = s.mem := rfl
@[simp] theorem State.setReg_inBuf (s : State) (r : RegIdx) (v : Byte) : (s.setReg r v).inBuf = s.inBuf := rfl
@[simp] theorem State.setReg_outBuf (s : State) (r : RegIdx) (v : Byte) : (s.setReg r v).outBuf = s.outBuf := rfl

@[simp] theorem State.setAcc_regs (s : State) (v : Byte) : (s.setAcc v).regs = s.regs := rfl
@[simp] theorem State.setAcc_acc (s : State) (v : Byte) : (s.setAcc v).acc = v := rfl
@[simp] theorem State.setAcc_pc (s : State) (v : Byte) : (s.setAcc v).pc = s.pc := rfl
@[simp] theorem State.setAcc_ir (s : State) (v : Byte) : (s.setAcc v).ir = s.ir := rfl
@[simp] theorem State.setAcc_flags (s : State) (v : Byte) : (s.setAcc v).flags = s.flags := rfl
@[simp] theorem State.setAcc_run (s : State) (v : Byte) : (s.setAcc v).run = s.run := rfl
@[simp] theorem State.setAcc_mem (s : State) (v : Byte) : (s.setAcc v).mem = s.mem := rfl
@[simp] theorem State.setAcc_inBuf (s : State) (v : Byte) : (s.setAcc v).inBuf = s.inBuf := rfl
@[simp] theorem State.setAcc_outBuf (s : State) (v : Byte) : (s.setAcc v).outBuf = s.outBuf := rfl

@[simp] theorem State.setFlags_regs (s : State) (f : Flags) : (s.setFlags f).regs = s.regs := rfl
@[simp] theorem State.setFlags_acc (s : State) (f : Flags) : (s.setFlags f).acc = s.acc := rfl
@[simp] theorem State.setFlags_pc (s : State) (f : Flags) : (s.setFlags f).pc = s.pc := rfl
@[simp] theorem State.setFlags_ir (s : State) (f : Flags) : (s.setFlags f).ir = s.ir := rfl
@[simp] theorem State.setFlags_flags (s : State) (f : Flags) : (s.setFlags f).flags = f := rfl
@[simp] theorem State.setFlags_run (s : State) (f : Flags) : (s.setFlags f).run = s.run := rfl
@[simp] theorem State.setFlags_mem (s : State) (f : Flags) : (s.setFlags f).mem = s.mem := rfl
@[simp] theorem State.setFlags_inBuf (s : State) (f : Flags) : (s.setFlags f).inBuf = s.inBuf := rfl
@[simp] theorem State.setFlags_outBuf (s : State) (f : Flags) : (s.setFlags f).outBuf = s.outBuf := rfl

@[simp] theorem State.setPc_regs (s : State) (t : Byte) : (s.setPc t).regs = s.regs := rfl
@[simp] theorem State.setPc_acc (s : State) (t : Byte) : (s.setPc t).acc = s.acc := rfl
@[simp] theorem State.setPc_pc (s : State) (t : Byte) : (s.setPc t).pc = t := rfl
@[simp] theorem State.setPc_ir (s : State) (t : Byte) : (s.setPc t).ir = s.ir := rfl
@[simp] theorem State.setPc_flags (s : State) (t : Byte) : (s.setPc t).flags = s.flags := rfl
@[simp] theorem State.setPc_run (s : State) (t : Byte) : (s.setPc t).run = s.run := rfl
@[simp] theorem State.setPc_mem (s : State) (t : Byte) : (s.setPc t).mem = s.mem := rfl
@[simp] theorem State.setPc_inBuf (s : State) (t : Byte) : (s.setPc t).inBuf = s.inBuf := rfl
@[simp] theorem State.setPc_outBuf (s : State) (t : Byte) : (s.setPc t).outBuf = s.outBuf := rfl

@[simp] theorem State.setIr_regs (s : State) (w : Word) : (s.setIr w).regs = s.regs := rfl
@[simp] theorem State.setIr_acc (s : State) (w : Word) : (s.setIr w).acc = s.acc := rfl
@[simp] theorem State.setIr_pc (s : State) (w : Word) : (s.setIr w).pc = s.pc := rfl
@[simp] theorem State.setIr_ir (s : State) (w : Word) : (s.setIr w).ir = w := rfl
@[simp] theorem State.setIr_flags (s : State) (w : Word) : (s.setIr w).flags = s.flags := rfl
@[simp] theorem State.setIr_run (s : State) (w : Word) : (s.setIr w).run = s.run := rfl
@[simp] theorem State.setIr_mem (s : State) (w : Word) : (s.setIr w).mem = s.mem := rfl
@[simp] theorem State.setIr_inBuf (s : State) (w : Word) : (s.setIr w).inBuf = s.inBuf := rfl
@[simp] theorem State.setIr_outBuf (s : State) (w : Word) : (s.setIr w).outBuf = s.outBuf := rfl

@[simp] theorem State.setRun_regs (s : State) (r : RunState) : (s.setRun r).regs = s.regs := rfl
@[simp] theorem State.setRun_acc (s : State) (r : RunState) : (s.setRun r).acc = s.acc := rfl
@[simp] theorem State.setRun_pc (s : State) (r : RunState) : (s.setRun r).pc = s.pc := rfl
@[simp] theorem State.setRun_ir (s : State) (r : RunState) : (s.setRun r).ir = s.ir := rfl
@[simp] theorem State.setRun_flags (s : State) (r : RunState) : (s.setRun r).flags = s.flags := rfl
@[simp] theorem State.setRun_run (s : State) (r : RunState) : (s.setRun r).run = r := rfl
@[simp] theorem State.setRun_mem (s : State) (r : RunState) : (s.setRun r).mem = s.mem := rfl
@[simp] theorem State.setRun_inBuf (s : State) (r : RunState) : (s.setRun r).inBuf = s.inBuf := rfl
@[simp] theorem State.setRun_outBuf (s : State) (r : RunState) : (s.setRun r).outBuf = s.outBuf := rfl

@[simp] theorem State.setMem_regs (s : State) (m : Memory) : (s.setMem m).regs = s.regs := rfl
@[simp] theorem State.setMem_acc (s : State) (m : Memory) : (s.setMem m).acc = s.acc := rfl
@[simp] theorem State.setMem_pc (s : State) (m : Memory) : (s.setMem m).pc = s.pc := rfl
@[simp] theorem State.setMem_ir (s : State) (m : Memory) : (s.setMem m).ir = s.ir := rfl
@[simp] theorem State.setMem_flags (s : State) (m : Memory) : (s.setMem m).flags = s.flags := rfl
@[simp] theorem State.setMem_run (s : State) (m : Memory) : (s.setMem m).run = s.run := rfl
@[simp] theorem State.setMem_mem (s : State) (m : Memory) : (s.setMem m).mem = m := rfl
@[simp] theorem State.setMem_inBuf (s : State) (m : Memory) : (s.setMem m).inBuf = s.inBuf := rfl
@[simp] theorem State.setMem_outBuf (s : State) (m : Memory) : (s.setMem m).outBuf = s.outBuf := rfl

/-- A register read after its own write. -/
@[simp] theorem State.reg_setReg_same (s : State) (r : RegIdx) (v : Byte) : (s.setReg r v).reg r = v := by
  simp [State.reg]

/-- A register read after another register's write. -/
theorem State.reg_setReg_other (s : State) (r k : RegIdx) (v : Byte) (h : k ≠ r) :
    (s.setReg r v).reg k = s.reg k := by
  have h' : r.val ≠ k.val := fun e => h (Fin.ext e.symm)
  simp [State.reg, Vector.getElem_set_ne, h']

@[simp] theorem State.reg_setAcc (s : State) (v : Byte) (k : RegIdx) : (s.setAcc v).reg k = s.reg k := rfl
@[simp] theorem State.reg_setFlags (s : State) (f : Flags) (k : RegIdx) : (s.setFlags f).reg k = s.reg k := rfl
@[simp] theorem State.reg_setPc (s : State) (t : Byte) (k : RegIdx) : (s.setPc t).reg k = s.reg k := rfl
@[simp] theorem State.reg_setIr (s : State) (w : Word) (k : RegIdx) : (s.setIr w).reg k = s.reg k := rfl
@[simp] theorem State.reg_setRun (s : State) (r : RunState) (k : RegIdx) : (s.setRun r).reg k = s.reg k := rfl
@[simp] theorem State.reg_setMem (s : State) (m : Memory) (k : RegIdx) : (s.setMem m).reg k = s.reg k := rfl

end Sys2Proof.Machine
end

