-- ==== Sys2Proof/Laws/Memory.lean ====
section
/-!
SUPPORT. The laws of memory: read after write, and that every memory operation keeps the canonical form.
-/

namespace Sys2Proof.Machine

/-- Below the list's first admissible address nothing is listed. -/
theorem Memory.cell_of_lt (m : Memory) (low a : Nat) (h : Memory.wfFrom low m = true) (ha : a < low) :
    m.cell a = Memory.unlisted := by
  cases m with
  | nil => rfl
  | cons e rest =>
    obtain ⟨k, v⟩ := e
    simp only [Memory.wfFrom, Bool.and_eq_true, decide_eq_true_eq] at h
    have : a < k := by omega
    simp [Memory.cell, this]

/-- A canonical list from `low` on is canonical from any lower bound. -/
theorem Memory.wfFrom_mono (m : Memory) (low low' : Nat) (h : Memory.wfFrom low m = true)
    (hl : low' ≤ low) : Memory.wfFrom low' m = true := by
  cases m with
  | nil => rfl
  | cons e rest =>
    obtain ⟨k, v⟩ := e
    simp only [Memory.wfFrom, Bool.and_eq_true, decide_eq_true_eq] at h ⊢
    exact ⟨⟨⟨by omega, h.1.1.2⟩, h.1.2⟩, h.2⟩

/-- Outside the address space nothing is listed. -/
theorem Memory.cell_of_ge (m : Memory) (low a : Nat) (h : Memory.wfFrom low m = true) (ha : memSize ≤ a) :
    m.cell a = Memory.unlisted := by
  induction m generalizing low with
  | nil => rfl
  | cons e rest ih =>
    obtain ⟨k, v⟩ := e
    simp only [Memory.wfFrom, Bool.and_eq_true, decide_eq_true_eq] at h
    have h1 : ¬ a < k := by omega
    have h2 : a ≠ k := by omega
    simp [Memory.cell, h1, h2, ih (k + 1) h.2]

/-- What a cell reads as after a write. -/
theorem Memory.cell_putFrom (m : Memory) (low a b : Nat) (v : Byte) (h : Memory.wfFrom low m = true) :
    (m.put a v).cell b = if b = a then v else m.cell b := by
  induction m generalizing low with
  | nil =>
    by_cases hv : v = Memory.unlisted
    · simp [Memory.put, hv, Memory.cell]
    · by_cases hb : b = a
      · simp [Memory.put, hv, Memory.cell, hb]
      · simp [Memory.put, hv, Memory.cell, hb]
  | cons e rest ih =>
    obtain ⟨k, x⟩ := e
    simp only [Memory.wfFrom, Bool.and_eq_true, decide_eq_true_eq] at h
    have hlow := fun c (hc : c < k + 1) => Memory.cell_of_lt rest (k + 1) c h.2 hc
    rcases lt_trichotomy a k with hak | hak | hak
    · by_cases hv : v = Memory.unlisted
      · by_cases hb : b = a
        · subst hb; simp [Memory.put, hak, hv, Memory.cell]
        · simp [Memory.put, hak, hv, hb]
      · by_cases hb : b = a
        · subst hb; simp [Memory.put, hak, hv, Memory.cell]
        · by_cases hba : b < a
          · have hbk : b < k := by omega
            simp [Memory.put, hak, hv, Memory.cell, hb, hba, hbk]
          · simp [Memory.put, hak, hv, Memory.cell, hb, hba]
    · subst hak
      by_cases hv : v = Memory.unlisted
      · by_cases hb : b = a
        · subst hb; simpa [Memory.put, hv] using hlow b (by omega)
        · by_cases hba : b < a
          · simpa [Memory.put, hv, Memory.cell, hb, hba] using hlow b (by omega)
          · simp [Memory.put, hv, Memory.cell, hb, hba]
      · by_cases hb : b = a
        · subst hb; simp [Memory.put, hv, Memory.cell]
        · simp [Memory.put, hv, Memory.cell, hb]
    · have h1 : ¬ a < k := by omega
      have h2 : a ≠ k := by omega
      rw [Memory.put, if_neg h1, if_neg h2]
      by_cases hbk : b < k
      · have hb : b ≠ a := by omega
        simp [Memory.cell, hbk, hb]
      · by_cases hbe : b = k
        · have hb : b ≠ a := by omega
          simp [Memory.cell, hbe, show ¬ k = a by omega]
        · simp [Memory.cell, hbk, hbe, ih (k + 1) h.2]

/-- A write keeps the canonical form from any bound not above the written address. -/
theorem Memory.wfFrom_put (m : Memory) (low a : Nat) (v : Byte) (h : Memory.wfFrom low m = true)
    (hl : low ≤ a) (ha : a < memSize) : Memory.wfFrom low (m.put a v) = true := by
  induction m generalizing low with
  | nil => by_cases hv : v = Memory.unlisted <;> simp [Memory.put, hv, Memory.wfFrom, hl, ha]
  | cons e rest ih =>
    obtain ⟨k, x⟩ := e
    have h0 := h
    simp only [Memory.wfFrom, Bool.and_eq_true, decide_eq_true_eq] at h
    obtain ⟨⟨⟨hk, hk'⟩, hx⟩, hr⟩ := h
    rcases lt_trichotomy a k with hak | hak | hak
    · by_cases hv : v = Memory.unlisted
      · simpa [Memory.put, hak, hv] using h0
      · simp [Memory.put, hak, hv, Memory.wfFrom, hl, ha, hk', hx, hr]
    · subst hak
      by_cases hv : v = Memory.unlisted
      · simpa [Memory.put, hv] using Memory.wfFrom_mono rest (a + 1) low hr (by omega)
      · simp [Memory.put, hv, Memory.wfFrom, hl, ha, hr]
    · have h1 : ¬ a < k := by omega
      have h2 : a ≠ k := by omega
      rw [Memory.put, if_neg h1, if_neg h2]
      simp [Memory.wfFrom, hk, hk', hx, ih (k + 1) hr (by omega)]

/-- Read after write: the written cell gives the value written, every other cell what it gave before. -/
theorem Memory.cell_put (m : Memory) (a b : Nat) (v : Byte) (h : m.wf = true) :
    (m.put a v).cell b = if b = a then v else m.cell b :=
  Memory.cell_putFrom m 0 a b v h

/-- A write inside the address space keeps the canonical form. -/
theorem Memory.wf_put (m : Memory) (a : Nat) (v : Byte) (h : m.wf = true) (ha : a < memSize) :
    (m.put a v).wf = true :=
  Memory.wfFrom_put m 0 a v h (Nat.zero_le a) ha

/-- A single-cell write keeps the canonical form. -/
theorem Memory.wf_writeCell (m m' : Memory) (a : Nat) (v : Byte) (h : m.wf = true)
    (hw : m.writeCell a v = some m') : m'.wf = true := by
  unfold Memory.writeCell at hw
  split at hw
  · cases hw; exact Memory.wf_put m a v h ‹_›
  · cases hw

/-- A write of consecutive cells keeps the canonical form. -/
theorem Memory.wf_writeCells (m m' : Memory) (a : Nat) (bs : List Byte) (h : m.wf = true)
    (hw : m.writeCells a bs = some m') : m'.wf = true := by
  induction bs generalizing m a with
  | nil => cases hw; exact h
  | cons b bs ih =>
    simp only [Memory.writeCells] at hw
    split at hw
    · rename_i m1 h1
      exact ih m1 (a + 1) (Memory.wf_writeCell m m1 a b h h1) hw
    · cases hw

/-- The multi-cell write keeps the canonical form. -/
theorem Memory.wf_writeWide (m m' : Memory) (loc : Nat) (data : Int) (numBits : Nat) (h : m.wf = true)
    (hw : m.writeWide loc data numBits = some m') : m'.wf = true :=
  Memory.wf_writeCells m m' loc _ h hw

/-- Cells put from `a` on inside the address space keep the canonical form. -/
theorem Memory.wf_putCells (m : Memory) (a : Nat) (bs : List Byte) (h : m.wf = true)
    (ha : a + bs.length ≤ memSize) : (m.putCells a bs).wf = true := by
  induction bs generalizing m a with
  | nil => exact h
  | cons b bs ih =>
    simp only [List.length_cons] at ha
    exact ih (m.put a b) (a + 1) (Memory.wf_put m a b h (by omega)) (by omega)

/-- What a cell reads as after cells have been put from `a` on. -/
theorem Memory.cell_putCells (m : Memory) (a b : Nat) (bs : List Byte) (h : m.wf = true)
    (ha : a + bs.length ≤ memSize) :
    (m.putCells a bs).cell b = if h : a ≤ b ∧ b < a + bs.length then bs[b - a]'(by omega) else m.cell b := by
  induction bs generalizing m a with
  | nil =>
    have : ¬ (a ≤ b ∧ b < a + 0) := by omega
    simp only [Memory.putCells, List.length_nil, this, dite_false]
  | cons x bs ih =>
    simp only [List.length_cons] at ha
    rw [Memory.putCells, ih (m.put a x) (a + 1) (Memory.wf_put m a x h (by omega)) (by omega),
      Memory.cell_put m a b x h]
    by_cases hb : b = a
    · subst hb; simp
    · by_cases h1 : a + 1 ≤ b ∧ b < a + 1 + bs.length
      · have h2 : a ≤ b ∧ b < a + (x :: bs).length := by simp only [List.length_cons]; omega
        rw [dif_pos h1, dif_pos h2]
        have e : b - a = (b - (a + 1)) + 1 := by omega
        simp [e]
      · have h2 : ¬ (a ≤ b ∧ b < a + (x :: bs).length) := by simp only [List.length_cons]; omega
        rw [dif_neg h1, dif_neg h2, if_neg hb]

/-- Memory after reset is canonical. -/
theorem Memory.wf_reset : State.reset.mem.wf = true := rfl

end Sys2Proof.Machine
end

