-- ==== Sys2Proof/Laws/Ops.lean ====
section
/-!
SUPPORT. One lemma for each shared operation that says what it can do; later proofs cite these and do not
unfold the operation.
-/

namespace Sys2Proof.Machine

/-! ## The I/O mirrors and the start of a cycle -/

@[simp] theorem State.ioSync_regs (s : State) : s.ioSync.regs = s.regs := rfl
@[simp] theorem State.ioSync_acc (s : State) : s.ioSync.acc = s.acc := rfl
@[simp] theorem State.ioSync_pc (s : State) : s.ioSync.pc = s.pc := rfl
@[simp] theorem State.ioSync_ir (s : State) : s.ioSync.ir = s.ir := rfl
@[simp] theorem State.ioSync_flags (s : State) : s.ioSync.flags = s.flags := rfl
@[simp] theorem State.ioSync_run (s : State) : s.ioSync.run = s.run := rfl
@[simp] theorem State.ioSync_inBuf (s : State) : s.ioSync.inBuf = s.inBuf := rfl

/-- The bytes an input mirror writes. -/
def State.mirrorBytes (s : State) : List Byte := (s.inBuf.take inCells).map (BitVec.ofNat 8)

theorem State.mirrorBytes_length (s : State) : s.mirrorBytes.length ≤ 2 := by
  simp [State.mirrorBytes, inCells]

/-- The memory after `IoSync()`: the mirrored bytes put at the input range. -/
theorem State.ioSync_mem (s : State) : s.ioSync.mem = s.mem.putCells ioInBase s.mirrorBytes := rfl

/-- The output buffer after `IoSync()`: the output range of the memory it leaves. -/
theorem State.ioSync_outBuf (s : State) :
    s.ioSync.outBuf = (List.range outCells).map fun j => s.ioSync.mem.cell (ioOutBase + j) := rfl

/-- The input range lies inside memory (R39). -/
theorem ioInBase_bound : ioInBase + 2 ≤ memSize := by
  have := Config.ioInBase.isLt
  simp only [ioInBase, memSize]; omega

/-- The output range lies inside memory (R39). -/
theorem ioOutBase_bound : ioOutBase + 4 ≤ memSize := by
  have := Config.ioOutBase.isLt
  simp only [ioOutBase, memSize]; omega

theorem State.wf_ioSync (s : State) (h : s.mem.wf = true) : s.ioSync.mem.wf = true := by
  have h1 := s.mirrorBytes_length
  have h2 := ioInBase_bound
  exact Memory.wf_putCells _ _ s.mirrorBytes h (by omega)

/-- What a cell reads as after `IoSync()`. -/
theorem State.cell_ioSync (s : State) (b : Nat) (h : s.mem.wf = true) :
    s.ioSync.mem.cell b =
      if h : ioInBase ≤ b ∧ b < ioInBase + s.mirrorBytes.length then s.mirrorBytes[b - ioInBase]'(by omega)
      else s.mem.cell b := by
  have h1 := s.mirrorBytes_length
  have h2 := ioInBase_bound
  exact Memory.cell_putCells _ _ _ s.mirrorBytes h (by omega)

@[simp] theorem State.beginCycle_regs (s : State) (w : Word) : (s.beginCycle w).regs = s.regs := rfl
@[simp] theorem State.beginCycle_acc (s : State) (w : Word) : (s.beginCycle w).acc = s.acc := rfl
@[simp] theorem State.beginCycle_pc (s : State) (w : Word) :
    (s.beginCycle w).pc = BitVec.ofNat 8 (s.pc.toNat + 2) := rfl
@[simp] theorem State.beginCycle_ir (s : State) (w : Word) : (s.beginCycle w).ir = w := rfl
@[simp] theorem State.beginCycle_flags (s : State) (w : Word) : (s.beginCycle w).flags = s.flags := rfl
@[simp] theorem State.beginCycle_run (s : State) (w : Word) : (s.beginCycle w).run = s.run := rfl
@[simp] theorem State.beginCycle_inBuf (s : State) (w : Word) : (s.beginCycle w).inBuf = s.inBuf := rfl

/-- The memory at the start of step 5 is the memory after the first mirror. -/
theorem State.beginCycle_mem (s : State) (w : Word) : (s.beginCycle w).mem = s.ioSync.mem := rfl

/-! ## The fetch -/

/-- The fetch below the last cell: the two cells side by side. -/
theorem State.fetchWord_of_lt (s : State) (h : s.pc.toNat + 1 < memSize) :
    s.fetchWord = some (s.mem.cell s.pc.toNat ++ s.mem.cell (s.pc.toNat + 1)) := by
  have h0 : s.pc.toNat < memSize := by omega
  simp only [State.fetchWord, Memory.readWide, Memory.readCells, Memory.readCell, h0, h, if_true,
    Option.map_some, concatCells, List.foldl]
  congr 1
  apply BitVec.eq_of_toNat_eq
  have a := (s.mem.cell s.pc.toNat).isLt
  have b := (s.mem.cell (s.pc.toNat + 1)).isLt
  rw [BitVec.toNat_append, BitVec.toNat_ofNat, ← Nat.shiftLeft_add_eq_or_of_lt b, Nat.shiftLeft_eq]
  omega

/-- The fetch at the last cell has no second cell. -/
theorem State.fetchWord_of_ge (s : State) (h : ¬ s.pc.toNat + 1 < memSize) : s.fetchWord = none := by
  by_cases h0 : s.pc.toNat < memSize <;>
    simp [State.fetchWord, Memory.readWide, Memory.readCells, Memory.readCell, h0, h]

/-! ## Operands -/

/-- Every direct address is a cell. -/
theorem directAddr_lt (a : Byte) : directAddr a < memSize := by
  have h1 := BitVec.toInt_lt (x := a)
  have h2 := BitVec.le_toInt (x := a)
  simp only [directAddr, memSize]
  split <;> omega

/-- A load through a direct address goes on with the cell's content. -/
theorem withDirectCell_eq (s : State) (a : Byte) (k : Byte → Result) :
    withDirectCell s a k = k (s.mem.cell (directAddr a)) := by
  simp [withDirectCell, Memory.readCell, directAddr_lt a]

/-- A store through a direct address answers a next state. -/
theorem storeDirect_eq (s : State) (a v : Byte) :
    storeDirect s a v = .next (s.setMem (s.mem.put (directAddr a) v)) := by
  simp [storeDirect, Memory.writeCell, directAddr_lt a]

/-- Everything the branch rule can do, whatever `BRANCH_HIGH_TARGET` is. -/
theorem takeBranchWith_eq (high : BranchHighTarget) (flag : Bool) (s : State) :
    takeBranchWith high flag s =
      if flag = true ∧ high = .fault ∧ (s.reg 7).msb = true then .fault .branchHighTarget
      else .next (if flag then s.setPc (s.reg 7) else s) := by
  cases flag <;> cases high <;> cases h : (s.reg 7).msb <;>
    simp [takeBranchWith, branchTarget, raiseFault, h]

/-- The branch rule at the decided parameter. -/
theorem takeBranchWith_unsigned (flag : Bool) (s : State) :
    takeBranchWith .unsigned flag s = .next (if flag then s.setPc (s.reg 7) else s) := by
  cases flag <;> rfl

/-! ## Flags -/

@[simp] theorem Flags.setZN_z (f : Flags) (v : Byte) : (f.setZN v).z = (v == 0) := rfl
@[simp] theorem Flags.setZN_n (f : Flags) (v : Byte) : (f.setZN v).n = v.msb := rfl
@[simp] theorem Flags.setZN_c (f : Flags) (v : Byte) : (f.setZN v).c = f.c := rfl
@[simp] theorem Flags.setZN_v (f : Flags) (v : Byte) : (f.setZN v).v = f.v := rfl
@[simp] theorem Flags.clearCV_z (f : Flags) : f.clearCV.z = f.z := rfl
@[simp] theorem Flags.clearCV_n (f : Flags) : f.clearCV.n = f.n := rfl
@[simp] theorem Flags.clearCV_c (f : Flags) : f.clearCV.c = false := rfl
@[simp] theorem Flags.clearCV_v (f : Flags) : f.clearCV.v = false := rfl
@[simp] theorem Flags.setCV_z (f : Flags) (c v : Bool) : (f.setCV c v).z = f.z := rfl
@[simp] theorem Flags.setCV_n (f : Flags) (c v : Bool) : (f.setCV c v).n = f.n := rfl
@[simp] theorem Flags.setCV_c (f : Flags) (c v : Bool) : (f.setCV c v).c = c := rfl
@[simp] theorem Flags.setCV_v (f : Flags) (c v : Bool) : (f.setCV c v).v = v := rfl

/-- What an ALU result's write does. -/
theorem writeAlu_eq (s : State) (o : AluOut) : writeAlu s o = .next ((s.setAcc o.result).setFlags o.flags) :=
  rfl

/-- What a load does. -/
theorem loadAcc_eq (s : State) (v : Byte) :
    loadAcc s v = .next ((s.setAcc v).setFlags (s.flags.setZN v)) := rfl

end Sys2Proof.Machine
end

