-- ==== Sys2Proof/Laws/Step.lean ====
section
/-!
SUPPORT. What a step can do, said once: the inversion of a cycle, and that every instruction answers a next
state.
-/

namespace Sys2Proof.Machine

/-- If a cycle answers `t`, it fetched a word `w`, and either `w` is invalid and `t` is the state after the
first half of the cycle, or `w` is an instruction, its meaning answers `u` from that state, and `t` is `u`
after the second mirror. -/
theorem cycleWith_cases (run : Instr → State → Result) (s t : State) (h : cycleWith run s = .next t) :
    ∃ w, s.fetchWord = some w ∧
      ((∃ e, decodeWord w = .error e ∧ t = s.beginCycle w) ∨
       (∃ i u, decodeWord w = .ok i ∧ run i (s.beginCycle w) = .next u ∧ t = u.ioSync)) := by
  unfold cycleWith at h
  split at h
  · cases h
  · rename_i w hw
    refine ⟨w, hw, ?_⟩
    split at h
    · rename_i i hi
      generalize hx : run i (s.beginCycle w) = x at h
      cases x with
      | next u => exact .inr ⟨i, u, hi, hx, by cases h; rfl⟩
      | fault k => cases h
      | refused r => cases h
    · rename_i e he
      exact .inl ⟨e, he, by cases h; rfl⟩

/-- `cycleWith_cases` for a step. -/
theorem step_cases (s t : State) (h : step s = .next t) :
    ∃ w, s.fetchWord = some w ∧
      ((∃ e, decodeWord w = .error e ∧ t = s.beginCycle w) ∨
       (∃ i u, decodeWord w = .ok i ∧ exec i (s.beginCycle w) = .next u ∧ t = u.ioSync)) :=
  cycleWith_cases exec s t h

/-- Every instruction answers a next state from every state. -/
theorem exec_answers (i : Instr) (s : State) : ∃ t, exec i s = .next t := by
  cases i with
  | ldaa a => exact ⟨_, withDirectCell_eq s a _⟩
  | staa a => exact ⟨_, storeDirect_eq s a _⟩
  | brz => exact ⟨_, takeBranchWith_unsigned _ s⟩
  | brc => exact ⟨_, takeBranchWith_unsigned _ s⟩
  | brn => exact ⟨_, takeBranchWith_unsigned _ s⟩
  | bro => exact ⟨_, takeBranchWith_unsigned _ s⟩
  | _ => exact ⟨_, rfl⟩

/-- No instruction writes a buffer or `IR` in step 5. -/
theorem exec_buffers (i : Instr) (s t : State) (h : exec i s = .next t) :
    t.inBuf = s.inBuf ∧ t.outBuf = s.outBuf ∧ t.ir = s.ir := by
  cases i with
  | ldaa a =>
    change withDirectCell s a _ = _ at h
    rw [withDirectCell_eq] at h; cases h; exact ⟨rfl, rfl, rfl⟩
  | staa a =>
    change storeDirect s a _ = _ at h
    rw [storeDirect_eq] at h; cases h; exact ⟨rfl, rfl, rfl⟩
  | brz => change takeBranchWith .unsigned _ s = _ at h; rw [takeBranchWith_unsigned] at h; cases h; split <;> exact ⟨rfl, rfl, rfl⟩
  | brc => change takeBranchWith .unsigned _ s = _ at h; rw [takeBranchWith_unsigned] at h; cases h; split <;> exact ⟨rfl, rfl, rfl⟩
  | brn => change takeBranchWith .unsigned _ s = _ at h; rw [takeBranchWith_unsigned] at h; cases h; split <;> exact ⟨rfl, rfl, rfl⟩
  | bro => change takeBranchWith .unsigned _ s = _ at h; rw [takeBranchWith_unsigned] at h; cases h; split <;> exact ⟨rfl, rfl, rfl⟩
  | _ => cases h; exact ⟨rfl, rfl, rfl⟩

end Sys2Proof.Machine
end

