-- ==== Sys2Proof/Laws/Params.lean ====
section
/-!
SUPPORT. The machine under other values of the two decided parameters (00_scope.md R5): at the decisions it is
the machine itself, and which instructions can differ.
-/

namespace Sys2Proof.Machine

/-- At the decisions every instruction has the meaning of `exec`. -/
theorem execWith_decided : execWith decidedParams = exec := by
  funext i s
  cases i <;> rfl

/-- At the decisions a cycle is a step. -/
theorem stepWith_decided : stepWith decidedParams = step := by
  funext s
  rw [stepWith, execWith_decided, step]

/-- At the decisions a run is the machine's run. -/
theorem runForWith_decided : runForWith decidedParams = runFor := by
  funext k s
  rw [runForWith, stepWith_decided, runFor]

/-- At the decisions a host's move is the machine's. -/
theorem hostMoveWith_decided : hostMoveWith decidedParams = hostMove := by
  funext s m
  rw [hostMoveWith, stepWith_decided, hostMove]

/-- At the decisions the machine is the one the host reads. -/
theorem coreWith_decided : coreWith decidedParams = Sys2Proof.core := by
  rw [coreWith, stepWith_decided, Sys2Proof.core]

/-- Only the rotations and the branches depend on the parameters. -/
theorem execWith_eq_exec (p : Params) (i : Instr) (s : State)
    (h : i.op ∉ [.rlc, .rrc, .brz, .brc, .brn, .bro]) : execWith p i s = exec i s := by
  cases i <;> first | rfl | exact absurd (by decide) h

/-- Under any parameters an instruction answers a next state, or is a branch under `BRANCH_HIGH_TARGET = fault`
with bit 7 of `x[7]` set, and faults by that name. -/
theorem execWith_answers (p : Params) (i : Instr) (s : State) :
    (∃ t, execWith p i s = .next t) ∨
      (i.op ∈ [.brz, .brc, .brn, .bro] ∧ p.branchHighTarget = .fault ∧ (s.reg 7).msb = true ∧
        execWith p i s = .fault .branchHighTarget) := by
  have branch (flag : Bool) (h : i.op ∈ [.brz, .brc, .brn, .bro])
      (hx : execWith p i s = takeBranchWith p.branchHighTarget flag s) :
      (∃ t, execWith p i s = .next t) ∨
        (i.op ∈ [.brz, .brc, .brn, .bro] ∧ p.branchHighTarget = .fault ∧ (s.reg 7).msb = true ∧
          execWith p i s = .fault .branchHighTarget) := by
    rw [hx, takeBranchWith_eq]
    split
    · rename_i c
      exact .inr ⟨h, c.2.1, c.2.2, rfl⟩
    · exact .inl ⟨_, rfl⟩
  by_cases hi : i.op ∉ [.rlc, .rrc, .brz, .brc, .brn, .bro]
  · obtain ⟨t, ht⟩ := exec_answers i s
    exact .inl ⟨t, (execWith_eq_exec p i s hi).trans ht⟩
  cases i with
  | brz => exact branch s.flags.z (by decide) rfl
  | brc => exact branch s.flags.c (by decide) rfl
  | brn => exact branch s.flags.n (by decide) rfl
  | bro => exact branch s.flags.v (by decide) rfl
  | rlc => exact .inl ⟨_, rfl⟩
  | rrc => exact .inl ⟨_, rfl⟩
  | _ => simp [Instr.op] at hi

end Sys2Proof.Machine
end

