-- ==== Sys2Proof/Laws/PerInstr.lean ====
section
/-!
SUPPORT. Statements about every instruction as syntax, one lemma per constructor.
-/

namespace Sys2Proof.Laws.Encoding

open Sys2Proof

/-- An instruction is well-formed (R62), its word carries its opcode in `w[15:11]` (R51, R55), the word is
valid in the instruction's own format (R52, R53), and only STOP's word is a halt (R54). -/
def Statement (i : Instr) : Prop :=
  i.wellFormed = true ∧ opcodeOf (encode i) = i.op.opcode ∧ formatOf (encode i) = some i.op.format ∧
    isHalt (encode i) = decide (i.op = .stop)

/-- A register line is within `[0,7]`. -/
theorem wellFormed_register (op : Op) (r : RegIdx) (h : op.format = .register) :
    SourceLine.wellFormed ⟨op, [(r.val : Int)]⟩ = true := by
  have := r.isLt
  simp only [SourceLine.wellFormed, h, Bool.and_eq_true, decide_eq_true_eq]
  omega

/-- A byte read unsigned fits 8 bits. -/
theorem fits_byte (a : Byte) : fits (a.toNat : Int) 8 = true := by
  have := a.isLt
  simp only [fits, Bool.and_eq_true, decide_eq_true_eq]
  omega

theorem and (r : RegIdx) : Statement (.and r) :=
  ⟨wellFormed_register .and r rfl, by revert r; decide, by revert r; decide, by revert r; decide⟩

theorem or (r : RegIdx) : Statement (.or r) :=
  ⟨wellFormed_register .or r rfl, by revert r; decide, by revert r; decide, by revert r; decide⟩

theorem addc (r : RegIdx) : Statement (.addc r) :=
  ⟨wellFormed_register .addc r rfl, by revert r; decide, by revert r; decide, by revert r; decide⟩

theorem sub (r : RegIdx) : Statement (.sub r) :=
  ⟨wellFormed_register .sub r rfl, by revert r; decide, by revert r; decide, by revert r; decide⟩

theorem mul (r : RegIdx) : Statement (.mul r) :=
  ⟨wellFormed_register .mul r rfl, by revert r; decide, by revert r; decide, by revert r; decide⟩

theorem ldar (r : RegIdx) : Statement (.ldar r) :=
  ⟨wellFormed_register .ldar r rfl, by revert r; decide, by revert r; decide, by revert r; decide⟩

theorem star (r : RegIdx) : Statement (.star r) :=
  ⟨wellFormed_register .star r rfl, by revert r; decide, by revert r; decide, by revert r; decide⟩

theorem ldaa (a : Byte) : Statement (.ldaa a) :=
  ⟨fits_byte a, by revert a; decide, by revert a; decide, by revert a; decide⟩

theorem staa (a : Byte) : Statement (.staa a) :=
  ⟨fits_byte a, by revert a; decide, by revert a; decide, by revert a; decide⟩

theorem ldai (a : Byte) : Statement (.ldai a) :=
  ⟨fits_byte a, by revert a; decide, by revert a; decide, by revert a; decide⟩

theorem neg : Statement .neg := ⟨rfl, rfl, rfl, rfl⟩

theorem not : Statement .not := ⟨rfl, rfl, rfl, rfl⟩

theorem rlc : Statement .rlc := ⟨rfl, rfl, rfl, rfl⟩

theorem rrc : Statement .rrc := ⟨rfl, rfl, rfl, rfl⟩

theorem brz : Statement .brz := ⟨rfl, rfl, rfl, rfl⟩

theorem brc : Statement .brc := ⟨rfl, rfl, rfl, rfl⟩

theorem brn : Statement .brn := ⟨rfl, rfl, rfl, rfl⟩

theorem bro : Statement .bro := ⟨rfl, rfl, rfl, rfl⟩

theorem nop : Statement .nop := ⟨rfl, rfl, rfl, rfl⟩

theorem stop : Statement .stop := ⟨rfl, rfl, rfl, rfl⟩

end Sys2Proof.Laws.Encoding
end

