-- ==== Sys2Proof/Tests/Slice0.lean ====
section
/-!
SUPPORT. Tests. Every expected value is from spec/: the source's worked examples S1 to S14 and the derived
tables D-DEC, D-ASM, D-ALU, D-IMP, D-LS, D-BR, D-CYC, D-MEM and programs P1, P6 of 95_test_vectors.md, or a
word written out bit by bit from 30_encoding.md R51 and R55; only `test_asm_outer_blanks` shows a choice of
the model. After them the witnesses of the statements in
Certificates/Slice0/Obligations.lean.
-/

namespace Sys2Proof.Tests

open Sys2Proof Sys2Proof.Machine

/-! ## Helpers -/

/-- The next state of a result. -/
def nextOf : Result → Option State
  | .next s => some s
  | .fault _ => none
  | .refused _ => none

/-- The fault of a result. -/
def faultOf : Result → Option Fault
  | .fault k => some k
  | .next _ => none
  | .refused _ => none

/-- The state after reset with an accumulator, flags in the order `Z C N V`, and one register. -/
def mk (a : Byte) (z c n v : Bool) (r : RegIdx) (x : Byte) : State :=
  ({ State.reset with acc := a, flags := ⟨z, c, n, v⟩ }).setReg r x

/-- `A` and the flags `Z C N V` after one cycle that runs the word `w` from `s`. -/
def after (s : State) (w : Nat) : Option (Byte × Bool × Bool × Bool × Bool) :=
  (nextOf (step (s.withFetchWord 16 w))).map fun t =>
    (t.acc, t.flags.z, t.flags.c, t.flags.n, t.flags.v)

/-- `PC` after one cycle of the word `w` at address `p` from `s`. -/
def pcAfter (s : State) (p : Byte) (w : Nat) : Option Byte :=
  (nextOf (step ((s.setPc p).withFetchWord 16 w))).map State.pc

/-- The decoded instruction of a word, none when the word is invalid. -/
def dec (w : Word) : Option Instr := decodeTableWord 16 w.toNat

/-! ## Well-formedness: one ill-formed line for each check (R62; S9, D-ASM) -/

theorem test_wf_register_too_big : SourceLine.wellFormed ⟨.and, [9]⟩ = false := by decide
theorem test_wf_register_eight : SourceLine.wellFormed ⟨.and, [8]⟩ = false := by decide
theorem test_wf_register_negative : SourceLine.wellFormed ⟨.and, [-1]⟩ = false := by decide
theorem test_wf_register_seven : SourceLine.wellFormed ⟨.and, [7]⟩ = true := by decide
theorem test_wf_register_missing : SourceLine.wellFormed ⟨.star, []⟩ = false := by decide
theorem test_wf_direct_too_big : SourceLine.wellFormed ⟨.ldaa, [256]⟩ = false := by decide
theorem test_wf_direct_missing : SourceLine.wellFormed ⟨.staa, []⟩ = false := by decide
theorem test_wf_immediate_too_big : SourceLine.wellFormed ⟨.ldai, [256]⟩ = false := by decide
theorem test_wf_immediate_too_small : SourceLine.wellFormed ⟨.ldai, [-129]⟩ = false := by decide
theorem test_wf_immediate_bounds :
    SourceLine.wellFormed ⟨.ldai, [-128]⟩ = true ∧ SourceLine.wellFormed ⟨.ldai, [255]⟩ = true := by decide
theorem test_wf_immediate_missing : SourceLine.wellFormed ⟨.ldai, []⟩ = false := by decide
theorem test_wf_second_operand : SourceLine.wellFormed ⟨.nop, [1, 2]⟩ = false := by decide

/-! ## Decoding: each word written out from R51 and R55 -/

theorem test_decode_and : dec 0b0000000100000000#16 = some (.and 1) := by decide
theorem test_decode_or : dec 0b0000100100000000#16 = some (.or 1) := by decide
theorem test_decode_addc : dec 0b0001101111111111#16 = some (.addc 3) := by decide
theorem test_decode_sub : dec 0b0010001000000000#16 = some (.sub 2) := by decide
theorem test_decode_mul : dec 0b0010100100000000#16 = some (.mul 1) := by decide
theorem test_decode_neg : dec 0b0011011111111111#16 = some .neg := by decide
theorem test_decode_not : dec 0b0011100000000000#16 = some .not := by decide
theorem test_decode_rlc : dec 0b0100000000000000#16 = some .rlc := by decide
theorem test_decode_rrc : dec 0b0100100000000000#16 = some .rrc := by decide
theorem test_decode_ldar : dec 0b0101001100000000#16 = some (.ldar 3) := by decide
theorem test_decode_star : dec 0b0101111100000000#16 = some (.star 7) := by decide
theorem test_decode_ldaa : dec 0b0110000001100100#16 = some (.ldaa 100) := by decide
theorem test_decode_staa : dec 0b0110111111111111#16 = some (.staa 255) := by decide
theorem test_decode_ldai : dec 0b0111000000010100#16 = some (.ldai 20) := by decide
theorem test_decode_brz : dec 0b1000000000000000#16 = some .brz := by decide
theorem test_decode_brc : dec 0b1000111111111111#16 = some .brc := by decide
theorem test_decode_brn : dec 0b1001000000000000#16 = some .brn := by decide
theorem test_decode_bro : dec 0b1001100000000000#16 = some .bro := by decide
theorem test_decode_nop : dec 0b1100000000000000#16 = some .nop := by decide
theorem test_decode_stop : dec 0xF800#16 = some .stop ∧ dec 0xFFFF#16 = some .stop := by decide

/-- D-DEC: the illegal words are refused by name. -/
theorem test_decode_illegal :
    decodeBytes [0x10, 0x00] = .error (.illegalOpcode 2) ∧ decodeBytes [0x17, 0xFF] = .error (.illegalOpcode 2) ∧
    decodeBytes [0x78, 0x00] = .error (.illegalOpcode 15) ∧ decodeBytes [0xF0, 0x00] = .error (.illegalOpcode 30) := by
  decide

/-- A byte alone is no instruction. -/
theorem test_decode_truncated : decodeBytes [0x70] = .error .truncated := by decide

/-- The legal set has 20 members (R53, S11). -/
theorem test_legal_count : ((List.range 32).filter fun n => (opOf (BitVec.ofNat 5 n)).isSome).length = 20 := by
  decide

/-! ## The register-direct ALU (D-ALU): `op 1`, expected `A, Z, C, N, V` -/

theorem test_and_clears_carry :
    after (mk 0xF0 false true false true 1 0x3C) 0x0100 = some (0x30, false, false, false, false) := by decide
theorem test_or_zero :
    after (mk 0x00 false true false true 1 0x00) 0x0900 = some (0x00, true, false, false, false) := by decide
/-- S3 -/
theorem test_addc_overflow :
    after (mk 0x7F false false false false 1 0x01) 0x1900 = some (0x80, false, false, true, true) := by decide
/-- S4 -/
theorem test_addc_carry :
    after (mk 0xFF false false false false 1 0x01) 0x1900 = some (0x00, true, true, false, false) := by decide
/-- S5 -/
theorem test_sub_borrow :
    after (mk 0x00 false false false false 1 0x0A) 0x2100 = some (0xF6, false, true, true, true) := by decide
/-- D-ALU: `80 - 01`, the signed less-than and no overflow -/
theorem test_sub_signed_carry :
    after (mk 0x80 false false false false 1 0x01) 0x2100 = some (0x7F, false, true, false, false) := by decide
/-- S6 -/
theorem test_mul_low_nibbles :
    after (mk 0xFF false false false false 1 0xFF) 0x2900 = some (0xE1, false, false, true, false) := by decide
theorem test_mul_high_nibble_ignored :
    after (mk 0xF0 false false false true 1 0xFF) 0x2900 = some (0x00, true, false, false, false) := by decide

/-! ## The implicit ALU (D-IMP) -/

theorem test_neg_most_negative :
    after (mk 0x80 false true false false 0 0) 0x3000 = some (0x80, false, false, true, false) := by decide
theorem test_not_clears_carry :
    after (mk 0xFF false true false false 0 0) 0x3800 = some (0x00, true, false, false, false) := by decide
theorem test_rlc_carry_in :
    after (mk 0x80 false true false true 0 0) 0x4000 = some (0x01, false, true, false, false) := by decide
theorem test_rlc_41 :
    after (mk 0x41 false true false false 0 0) 0x4000 = some (0x83, false, false, true, false) := by decide
theorem test_rrc_carry_in :
    after (mk 0x01 false true false true 0 0) 0x4800 = some (0x80, false, true, true, false) := by decide
theorem test_rrc_zero :
    after (mk 0x01 false false false false 0 0) 0x4800 = some (0x00, true, true, false, false) := by decide
/-- D-IMP, `ROT_FILL = wrap`: RLC `FF` gives `FF`; `zero`: RLC `80` with `C = 1` gives `00`, `Z = C = 1`. -/
theorem test_rlc_other_fills :
    (aluRlcWith .wrap 0xFF ⟨false, false, false, false⟩).result = 0xFF ∧
    aluRlcWith .zero 0x80 ⟨false, true, false, false⟩ = ⟨0x00, ⟨true, true, false, false⟩⟩ := by decide

/-- D-IMP, the cycles of RRC `01` and RLC `FF` under the other fills. -/
theorem test_step_other_fills :
    (nextOf (stepWith ⟨.zero, .unsigned⟩ ((mk 0x01 false true false false 0 0).withFetchWord 16 0x4800))).map
      (fun t => (t.acc, t.flags)) = some (0x00, ⟨true, true, false, false⟩) ∧
    (nextOf (stepWith ⟨.wrap, .unsigned⟩ ((mk 0xFF false false false false 0 0).withFetchWord 16 0x4000))).map
      State.acc = some 0xFF := by decide

/-! ## Loads and stores (D-LS) -/

theorem test_ldar_keeps_c_v :
    after (mk 0x11 true true false true 3 0x80) 0x5300 = some (0x80, false, true, true, true) := by decide
theorem test_star_no_flags :
    (nextOf (step ((mk 0x00 false false true false 0 0x55).withFetchWord 16 0x5800))).map
      (fun t => (t.reg 0, t.acc, t.flags.z, t.flags.n)) = some (0x00, 0x00, false, true) := by decide
theorem test_ldaa_top_cell :
    after ((mk 0x33 false true true false 0 0).setMem [(0xFF, 0x9C)]) 0x60FF =
      some (0x9C, false, true, true, false) := by decide
/-- D-LS: `LDAA 3` at `PC = 02` reads its own low byte. -/
theorem test_ldaa_own_byte : after ((mk 0 false false false false 0 0).setPc 2) 0x6003 =
    some (0x03, false, false, false, false) := by decide
theorem test_staa_top_cell :
    (nextOf (step ((mk 0xF8 true false false true 0 0).withFetchWord 16 0x68FF))).map
      (fun t => (t.mem.cell 0xFF, t.acc, t.flags)) = some (0xF8, 0xF8, ⟨true, false, false, true⟩) := by decide
theorem test_ldai_zero : after (mk 0x11 false true true true 0 0) 0x7000 =
    some (0x00, true, true, false, true) := by decide
theorem test_ldai_c8 : after (mk 0x11 false false false false 0 0) 0x70C8 =
    some (0xC8, false, false, true, false) := by decide

/-! ## Branches and control (D-BR) -/

theorem test_brz : pcAfter (mk 0 true false false false 7 0x0A) 0x0C 0x8000 = some 0x0A ∧
    pcAfter (mk 0 false true true true 7 0x0A) 0x0C 0x8000 = some 0x0E := by decide
theorem test_brz_wraps : pcAfter (mk 0 false false false false 7 0x0A) 0xFE 0x8000 = some 0x00 := by decide
theorem test_brc : pcAfter (mk 0 false true false false 7 0x80) 0x04 0x8800 = some 0x80 ∧
    pcAfter (mk 0 true false true true 7 0x20) 0x10 0x8800 = some 0x12 := by decide
theorem test_brn : pcAfter (mk 0 false false true false 7 0xFF) 0x04 0x9000 = some 0xFF ∧
    pcAfter (mk 0 false false false false 7 0x0C) 0x10 0x9000 = some 0x12 := by decide
theorem test_bro : pcAfter (mk 0 false false false true 7 0x00) 0x06 0x9800 = some 0x00 ∧
    pcAfter (mk 0 true true true false 7 0x00) 0x06 0x9800 = some 0x08 := by decide
/-- D-BR: under `BRANCH_HIGH_TARGET = fault` a taken branch to `80` is fatal. -/
theorem test_branch_high_target_fault :
    faultOf (stepWith ⟨.carryIn, .fault⟩ ((mk 0 false true false false 7 0x80).withFetchWord 16 0x8800)) =
      some .branchHighTarget := by decide
/-- P6 under `BRANCH_HIGH_TARGET = fault`: "the fatal outcome is already taken in cycle 3", and not before. -/
theorem test_program_p6_high_target_fault :
    (nextOf (State.init [0x70FF, 0x5F00, 0x9000])).map (fun s =>
      (faultOf (runForWith ⟨.carryIn, .fault⟩ 3 s), faultOf (runForWith ⟨.carryIn, .fault⟩ 2 s))) =
      some (some .branchHighTarget, none) := by decide
theorem test_nop : pcAfter (mk 0 true true false true 0 0) 0x04 0xC000 = some 0x06 := by decide
theorem test_stop :
    (nextOf (step (((mk 0x14 true true false true 0 0).setPc 2).withFetchWord 16 0xF800))).map
      (fun t => (t.run, t.pc, t.acc, t.ir, t.flags)) =
      some (.halted, 0x04, 0x14, 0xF800, ⟨true, true, false, true⟩) := by decide

/-! ## The cycle (D-CYC) -/

theorem test_invalid_word :
    (nextOf (step (((mk 0xF8 false false true false 0 0).setPc 4).withFetchWord 16 0x1000))).map
      (fun t => (t.pc, t.ir, t.acc, t.flags, t.run)) =
      some (0x06, 0x1000, 0xF8, ⟨false, false, true, false⟩, .running) := by decide
theorem test_odd_pc : (nextOf (step { State.reset with pc := 9, mem := [(9, 0x70), (10, 0x2A)] })).map
    (fun t => (t.ir, t.acc, t.pc)) = some (0x702A, 0x2A, 0x0B) := by decide
theorem test_big_endian : (nextOf (step { State.reset with mem := [(0, 0x14), (1, 0x70)] })).map
    (fun t => (t.ir, t.acc)) = some (0x1470, 0x00) := by decide
/-- P6, its fourth cycle -/
theorem test_fetch_out_of_range : faultOf (step { State.reset with pc := 0xFF }) = some .fetchOutOfRange := by
  decide
theorem test_step_when_halted :
    (nextOf (step (({ State.reset with acc := 0x14, pc := 4, run := .halted }).withFetchWord 16 0x7007))).map
      (fun t => (t.acc, t.pc, t.run)) = some (0x07, 0x06, .halted) := by decide
/-- P1, S8: `LDI 20; STOP` loaded by `init` and run. -/
theorem test_program_p1 :
    (nextOf (State.init [0x7014, 0xF800])).bind (fun s => (nextOf (runFor 2 s)).map
      (fun t => (t.acc, t.pc, t.run, t.ir))) = some (0x14, 0x04, .halted, 0xF800) := by decide
theorem test_program_p1_ends :
    (nextOf (State.init [0x7014, 0xF800])).map (endsWithin 2) = some true := by decide

/-! ## Memory and the mirrors (D-MEM) -/

theorem test_read_two_cells : Memory.readWide [(4, 0x12), (5, 0x34)] 4 2 = some 0x1234#16 := by decide
/-- S7 -/
theorem test_write_ten_bits : Memory.writeWide [] 0 (-258) 10 = some [(0, 0xFE), (1, 0xFE)] := by decide
theorem test_write_three_bits : Memory.writeWide [] 0 5 3 = some [(0, 0xFD)] := by decide
theorem test_write_word : Memory.writeWide [] 6 0x7014 16 = some [(6, 0x70), (7, 0x14)] := by decide
theorem test_read_past_end : Memory.readWide [] 255 2 = none := by decide
theorem test_write_unlisted_removes : Memory.put [(3, 7), (5, 9)] 3 0 = [(5, 9)] := by decide
theorem test_memory_wf_order : Memory.wf [(5, 1), (3, 1)] = false ∧ Memory.wf [(3, 0)] = false ∧
    Memory.wf [(256, 1)] = false ∧ Memory.wf [(3, 1), (255, 1)] = true := by decide
theorem test_input_mirror_one : (({ State.reset with inBuf := [0x41] }).inputMirrorAt 16).mem = [(16, 0x41)] := by
  decide
theorem test_input_mirror_two :
    ((({ State.reset with inBuf := [0x48, 0x69] }).setMem [(16, 1)]).inputMirrorAt 16).mem =
      [(16, 0x48), (17, 0x69)] := by decide
theorem test_output_mirror : ((State.reset.setMem [(8, 0x4F)]).outputMirrorAt 8).outBuf = [0x4F, 0, 0, 0] := by
  decide
theorem test_input_truncated : (State.reset.writeInput [72, 105, 33]).inBuf = [72, 105] := by decide
theorem test_pack : Flags.pack .zcnv ⟨true, false, false, true⟩ = 0b1001#4 ∧
    Flags.pack .vncz ⟨true, true, false, false⟩ = 0b0011#4 := by decide

/-! ## The assembler and the machine-code file (D-ASM, S9, S10, S14) -/

theorem test_asm_ldi : assembleLine ['L', 'D', 'I', ' ', '-', '5', '6'] = .ok 0x70C8 := by decide
/-- Surrounding blanks are dropped: the model's choice (log entry 23). -/
theorem test_asm_outer_blanks : assembleLine [' ', 'L', 'D', 'I', '\t', '2', '0', ' '] = .ok 0x7014 := by decide
theorem test_asm_lower_case : assembleLine ['n', 'e', 'g'] = .ok 0x3000 := by decide
theorem test_asm_staa : assembleLine ['S', 'T', 'A', 'A', ' ', '2', '0', '0'] = .ok 0x68C8 := by decide
theorem test_asm_and_nine : assemble [['N', 'O', 'P'], ['A', 'N', 'D', ' ', '9']] = .error (2, .invalidRegister) := by
  decide
theorem test_asm_stops_early : assemble [['S', 'T', 'O', 'P'], ['?']] = .ok [0xF800] := by decide
theorem test_asm_unknown : assembleLine ['J', 'M', 'P'] = .error .unknownMnemonic := by decide
theorem test_file_without_stop : (scanFile [['7', '0', '1', '4']]).valid = false := by decide
theorem test_file_valid : (scanFile [['7', '0', '1', '4'], ['f', '8', '0', '0']]).valid = true := by decide

/-! ## Witnesses: every statement with hypotheses has a state and operands that meet them all -/

/-- A state with a word in the two cells at `PC` and one character in the input buffer. -/
def withWord (w : Nat) : State := ({ State.reset with inBuf := [0x41] }).withFetchWord 16 w

/-- A step that answers, from the computed outcome. -/
theorem answers (s : State) (h : (nextOf (step s)).isSome = true) : ∃ t, step s = .next t := by
  cases hs : step s with
  | next t => exact ⟨t, rfl⟩
  | fault k => rw [hs] at h; cases h
  | refused r => rw [hs] at h; cases h

/-- With an empty input buffer no cell is mirrored. -/
theorem not_mirrored (s : State) (a : Nat) (h : s.inBuf = []) : s.mirrored a = false := by
  simp only [State.mirrored, h, List.take_nil, List.length_nil, Nat.add_zero, Bool.and_eq_false_iff,
    decide_eq_false_iff_not]
  omega

theorem witness_DecodedWordReencodes :
    decodeWord 0x37FF#16 = .ok .neg ∧ decodeWord 0x1BFF#16 = .ok (.addc 3) ∧
    decodeWord 0x6FFF#16 = .ok (.staa 255) ∧ decodeWord 0x7714#16 = .ok (.ldai 20) := ⟨rfl, rfl, rfl, rfl⟩

theorem witness_LegalOpcodeSet :
    (0x37FF#16).extractLsb' 11 5 = (0x3000#16).extractLsb' 11 5 ∧ isValid 0x0000#16 = true ∧
    isValid 0xFFFF#16 = true ∧ isValid 0x1000#16 = false ∧ isValid 0xF7FF#16 = false := by decide

theorem witness_HaltExactlyOpcode31 : isHalt 0xF800#16 = true ∧ isHalt 0xF7FF#16 = false := by decide

theorem witness_IgnoredBitsHaveNoEffect :
    opcodeOf 0x1BFF#16 = opcodeOf 0x1B00#16 ∧ isValid 0x1BFF#16 = true ∧
    formatOf 0x1BFF#16 = some .register ∧ (0x1BFF#16).extractLsb' 8 3 = (0x1B00#16).extractLsb' 8 3 ∧
    opcodeOf 0x67FF#16 = opcodeOf 0x60FF#16 ∧ formatOf 0x67FF#16 = some .direct ∧
    (0x67FF#16).extractLsb' 0 8 = (0x60FF#16).extractLsb' 0 8 ∧
    (Instr.op .neg).format = .implicit ∧ (Instr.op (.and 7)).format = .register ∧
    (Instr.op (.ldaa 255)).format = .direct ∧ (Instr.op (.ldai 255)).format = .immediate := by decide

theorem witness_OpcodeSelectsFormat : decodeWord 0x6064#16 = .ok (.ldaa 100) := rfl

theorem witness_AssemblerOperandRanges :
    Op.format .and = .register ∧ ((8 : Int) < 0 ∨ (7 : Int) < 8) ∧ ((-1 : Int) < 0 ∨ (7 : Int) < -1) ∧
    Op.format .ldaa = .direct ∧ Op.format .ldai = .immediate ∧ ((-129 : Int) < -128 ∨ (255 : Int) < -129) ∧
    ((256 : Int) < -128 ∨ (255 : Int) < 256) ∧ ((-128 : Int) ≤ -128 ∧ (-128 : Int) ≤ 255) ∧
    Op.format .star ≠ .implicit := by decide

theorem witness_AssembledLineDecodes : encodeLine ⟨.ldai, [-56]⟩ = .ok 0x70C8 := by decide

theorem witness_IndexOutsideMemoryIsAnError :
    ({ State.reset with pc := 0xFF } : State).pc = 0xFF#8 ∧ Memory.readCell [] 256 = none ∧
    Memory.readCell [] 255 = some 0 := by decide

theorem witness_MultiCellReadConcatenates : 254 + 2 ≤ 256 ∧ 0 < 2 ∧ 256 < 255 + 2 := by decide

theorem witness_MultiCellWriteThenRead :
    Memory.wf [] = true ∧ 0 < 10 ∧ 254 + cellsFor 10 ≤ 256 ∧ -(2 ^ (10 - 1) : Int) ≤ -512 ∧
    (-512 : Int) < (2 ^ (10 - 1) : Int) ∧ (511 : Int) < (2 ^ (10 - 1) : Int) := by decide

theorem witness_BigEndianWordsAndStores :
    (withWord 0x7014).fetchWord = some 0x7014#16 ∧ (withWord 0x7014).mem.wf = true := by decide

theorem witness_InputMirrorCopiesCharacters :
    (withWord 0x7014).mem.wf = true ∧ 254 + 2 ≤ 256 ∧ 0 < (withWord 0x7014).inBuf.length := by decide

theorem witness_CycleLeavesChannelsMirrored :
    (withWord 0xC000).mem.wf = true ∧ (∃ t, step ({ withWord 0xC000 with inBuf := [] }) = .next t) ∧
    0 < (withWord 0xC000).inBuf.length :=
  ⟨by decide, answers _ (by decide), by decide⟩

theorem witness_StepRunsDecodedInstruction :
    (withWord 0x7014).pc ≠ 0xFF#8 ∧ decodeBytes [(withWord 0x7014).mem.cell (withWord 0x7014).pc.toNat,
      (withWord 0x7014).mem.cell ((withWord 0x7014).pc.toNat + 1)] = .ok (.ldai 20, []) := ⟨by decide, rfl⟩

theorem witness_StepFaultsExactlyAtLastCell : State.reset.pc ≠ 0xFF#8 := by decide

theorem witness_InvalidWordIsSkipped :
    (withWord 0x1000).fetchWord = some 0x1000#16 ∧ (opcodeOf 0x1000#16).toNat = 2 ∧
    (withWord 0xF7FF).fetchWord = some 0xF7FF#16 ∧ (opcodeOf 0xF7FF#16).toNat = 30 := by decide

/-- A state with an empty input buffer and a word at `PC`, whose step computes. -/
def quiet (w : Nat) : State := State.reset.withFetchWord 16 w

theorem witness_InstructionRegisterHoldsFetchedWord : ∃ t, step (quiet 0x7014) = .next t :=
  answers _ (by decide)

/-- Taken (`Z` set) and not taken. -/
theorem witness_PcAdvancesByTwoUnlessBranchTaken :
    (quiet 0x8000).fetchWord = some 0x8000#16 ∧ (∃ t, step (quiet 0x8000) = .next t) ∧
    (∃ t, step ((quiet 0x8000).setFlags ⟨true, false, false, false⟩) = .next t) ∧
    Expect.taken (opcodeOf 0x8000#16) ⟨true, false, false, false⟩ = true ∧
    Expect.taken (opcodeOf 0x8000#16) ⟨false, true, true, true⟩ = false :=
  ⟨by decide, answers _ (by decide), answers _ (by decide), by decide, by decide⟩

theorem witness_RunStateChangesOnlyByStop :
    (quiet 0xF800).fetchWord = some 0xF800#16 ∧ (∃ t, step (quiet 0xF800) = .next t) ∧
    (nextOf (State.init [0xF800])).isSome = true ∧
    (nextOf (hostMove (State.reset.setRun .halted) (.setRun true))).map State.run = some .running :=
  ⟨by decide, answers _ (by decide), by decide, by decide⟩

theorem witness_OnlyStarWritesRegisters :
    (quiet 0x5F00).fetchWord = some 0x5F00#16 ∧ (∃ t, step (quiet 0x5F00) = .next t) :=
  ⟨by decide, answers _ (by decide)⟩

theorem witness_MemoryChangesOnlyByStoreAndMirror :
    (quiet 0x68FF).mem.wf = true ∧ (quiet 0x68FF).fetchWord = some 0x68FF#16 ∧
    (∃ t, step (quiet 0x68FF) = .next t) ∧ (quiet 0x68FF).mirrored 255 = false :=
  ⟨by decide, by decide, answers _ (by decide), not_mirrored _ _ rfl⟩

/-- One word of each of the five groups of opcodes. -/
theorem witness_FlagsWrittenPerOpcode :
    (∃ t, step (quiet 0x2100) = .next t) ∧ (∃ t, step (quiet 0x3800) = .next t) ∧
    (∃ t, step (quiet 0x4800) = .next t) ∧ (∃ t, step (quiet 0x60FF) = .next t) ∧
    (∃ t, step (quiet 0x1000) = .next t) ∧ (opcodeOf 0x2100#16).toNat = 4 ∧
    (opcodeOf 0x3800#16).toNat = 7 ∧ (opcodeOf 0x4800#16).toNat = 9 ∧ (opcodeOf 0x60FF#16).toNat = 12 ∧
    (opcodeOf 0x1000#16).toNat = 2 ∧ (quiet 0x2100).fetchWord = some 0x2100#16 :=
  ⟨answers _ (by decide), answers _ (by decide), answers _ (by decide), answers _ (by decide),
    answers _ (by decide), by decide, by decide, by decide, by decide, by decide, by decide⟩

theorem witness_StepKeepsZeroAndNegativeExclusive :
    ((quiet 0x7000).flags.z && (quiet 0x7000).flags.n) = false ∧ ∃ t, step (quiet 0x7000) = .next t :=
  ⟨by decide, answers _ (by decide)⟩

theorem witness_StepKeepsLegalStates : (quiet 0x68FF).Inv ∧ ∃ t, step (quiet 0x68FF) = .next t :=
  ⟨by decide, answers _ (by decide)⟩

theorem witness_HostMovesKeepLegalStates :
    State.reset.Inv ∧ (nextOf (hostMove State.reset (.init [0xF800]))).isSome = true ∧
    (nextOf (hostMove State.reset .step)).isSome = true ∧
    (nextOf (hostMove State.reset (.run 1))).isSome = true ∧
    (nextOf (hostMove State.reset (.setRun false))).isSome = true ∧
    (nextOf (hostMove State.reset (.writeInput [1, 2, 3]))).isSome = true := by decide

theorem witness_EvenPcStaysEvenAndNeverFaults :
    (({ quiet 0x8000 with pc := 0xFE } : State).pc.getLsbD 0) = false ∧
    (quiet 0x8000).regs[7].getLsbD 0 = false := by decide

theorem witness_StepIgnoresRunState :
    (quiet 0xF800).fetchWord = some 0xF800#16 ∧ (∃ t, step (quiet 0xF800) = .next t) ∧
    (quiet 0xC000).fetchWord = some 0xC000#16 ∧ (∃ t, step (quiet 0xC000) = .next t) :=
  ⟨by decide, answers _ (by decide), by decide, answers _ (by decide)⟩

theorem witness_RunCyclesWhileRunning :
    (State.reset.setRun .halted).run = .halted ∧ State.reset.run = .running ∧
    (∃ t, step State.reset = .next t) ∧ faultOf (step (State.reset.setPc 0xFF)) = some .fetchOutOfRange :=
  ⟨by decide, by decide, answers _ (by decide), by decide⟩

theorem witness_RunEndsAtStop :
    (quiet 0xF800).run = .running ∧ (nextOf (runFor 1 (quiet 0xF800))).map State.run = some .halted := by
  decide

theorem witness_InitLoadsProgram :
    (List.replicate 128 (0xC000 : Word)).length ≤ 128 ∧ 128 < (List.replicate 129 (0xC000 : Word)).length := by
  simp

theorem witness_InputBufferKeepsLeadingCharacters : ∃ t, step (quiet 0xC000) = .next t := answers _ (by decide)

theorem witness_ClearCVForcesCarryAndOverflowFalse :
    ∀ i ∈ ([.and 0, .or 7, .mul 3, .not, .neg] : List Instr), i.op ∈ ([.and, .or, .mul, .not, .neg] : List Op) := by
  decide

/-- The encoding clauses of AND, OR, ADDC, MUL, NOT, LDAR, LDAA, LDAI, RLC and RRC. -/
theorem witness_encodings :
    (0x0100#16).extractLsb' 11 5 = 0b00000#5 ∧ (0x0900#16).extractLsb' 11 5 = 0b00001#5 ∧
    (0x1BFF#16).extractLsb' 11 5 = 0b00011#5 ∧ (0x2900#16).extractLsb' 11 5 = 0b00101#5 ∧
    (0x3800#16).extractLsb' 11 5 = 0b00111#5 ∧ (0x5300#16).extractLsb' 11 5 = 0b01010#5 ∧
    (0x60FF#16).extractLsb' 11 5 = 0b01100#5 ∧ (0x7014#16).extractLsb' 11 5 = 0b01110#5 ∧
    (0x47FF#16).extractLsb' 11 5 = 0b01000#5 ∧ (0x4FFF#16).extractLsb' 11 5 = 0b01001#5 := by decide

/-- The largest 9-bit sum, 511 (D-ALU). -/
theorem witness_AddcResult :
    511 = (mk 0xFF false true false false 1 0xFF).acc.toNat + (mk 0xFF false true false false 1 0xFF).regs[1].toNat +
      (mk 0xFF false true false false 1 0xFF).flags.c.toNat ∧ (0xFF : Byte) = BitVec.ofNat 8 511 := by decide

theorem witness_SubResult : (0xF6 : Byte) =
    (mk 0 false false false false 1 0x0A).acc - (mk 0 false false false false 1 0x0A).regs[1] := by decide

theorem witness_RotationsUndoEachOther :
    (nextOf (exec .rlc (quiet 0))).isSome = true ∧ ((nextOf (exec .rlc (quiet 0))).bind
      (fun t => nextOf (exec .rrc t))).isSome = true ∧
    ((nextOf (exec .rrc (quiet 0))).bind (fun t => nextOf (exec .rlc t))).isSome = true := by decide

theorem witness_StaaResultAndFrame : (quiet 0x68FF).mem.wf = true := by decide

theorem witness_NonStoringFrame :
    (∀ a, Instr.ldaa 0 ≠ .staa a) ∧ (nextOf (exec (.ldaa 0) (quiet 0))).isSome = true ∧
    Instr.star 7 ≠ .star 0 ∧ Instr.op .nop ∈ ([.star, .brz, .brc, .brn, .bro, .nop, .stop] : List Op) ∧
    Instr.op (.ldaa 0) ∈ ([.ldar, .ldaa, .ldai] : List Op) ∧ Instr.op .nop ≠ .stop ∧
    Instr.op .nop ∉ ([.brz, .brc, .brn, .bro] : List Op) := by decide

theorem witness_NopResult : (quiet 0xC7FF).fetchWord = some 0xC7FF#16 ∧ opcodeOf 0xC7FF#16 = 24 := by decide

theorem witness_StopResult : 0xF800 ≤ (0xF800#16).toNat ∧ 0xF800 ≤ (0xFFFF#16).toNat := by decide

end Sys2Proof.Tests
end

section
/-!
The proofs about memory's byte order and the output mirror (20_memory.md R36, R42), with the laws of the fetch
and of STAA they rest on.
-/

namespace Sys2Proof.Machine

/-- R125: normalising the signed operand byte reads it as unsigned. -/
theorem directAddr_eq_toNat (a : Byte) : directAddr a = a.toNat := by
  have hlt := a.isLt
  have hint := BitVec.toInt_eq_toNat_cond a
  simp only [directAddr, memSize]
  split at hint <;> split <;> omega

/-- STAA answers the state with `A` put at the operand's unsigned address (R123, R125). -/
theorem exec_staa (a : Byte) (s : State) :
    exec (.staa a) s = .next (s.setMem (s.mem.put a.toNat s.acc)) := by
  rw [← directAddr_eq_toNat]
  exact storeDirect_eq s a s.acc

/-- The fetch answers exactly when both cells lie in memory, and then their bytes, high byte first (R36, R72). -/
theorem State.fetchWord_eq_some_iff (s : State) (w : Word) :
    s.fetchWord = some w ↔
      s.pc.toNat + 1 < memSize ∧ s.mem.cell s.pc.toNat ++ s.mem.cell (s.pc.toNat + 1) = w := by
  by_cases h : s.pc.toNat + 1 < memSize
  · simp [State.fetchWord_of_lt s h, h]
  · simp [State.fetchWord_of_ge s h, h]

/-- The fetch after a put into canonical memory, below the last cell: each of the two cells is the byte put
where the addresses agree, and its old content elsewhere. -/
theorem State.fetchWord_setMem_put (s : State) (a : Nat) (v : Byte) (hwf : s.mem.wf = true)
    (hpc : s.pc.toNat + 1 < memSize) :
    (s.setMem (s.mem.put a v)).fetchWord = some
      ((if s.pc.toNat = a then v else s.mem.cell s.pc.toNat) ++
        (if s.pc.toNat + 1 = a then v else s.mem.cell (s.pc.toNat + 1))) := by
  rw [State.fetchWord_of_lt (s.setMem (s.mem.put a v)) hpc]
  simp only [State.setMem_pc, State.setMem_mem, Memory.cell_put _ _ _ _ hwf]

/-- Settles O13: the fetched word is the bytes of its two cells, and a STAA puts `A` in at most one of them. -/
theorem bigEndianWordsAndStores : Obligations.BigEndianWordsAndStores := by
  refine ⟨fun w => rfl, fun s w hfetch => ?_⟩
  obtain ⟨hpc, rfl⟩ := (s.fetchWord_eq_some_iff w).mp hfetch
  have hhi : (s.mem.cell s.pc.toNat ++ s.mem.cell (s.pc.toNat + 1)).extractLsb' 8 8 = s.mem.cell s.pc.toNat :=
    BitVec.extractLsb'_append_eq_left
  have hlo : (s.mem.cell s.pc.toNat ++ s.mem.cell (s.pc.toNat + 1)).extractLsb' 0 8 =
      s.mem.cell (s.pc.toNat + 1) := BitVec.extractLsb'_append_eq_right
  refine ⟨hhi, hlo, fun hwf a => ⟨_, exec_staa a s, ?_⟩⟩
  rw [hhi, hlo, s.fetchWord_setMem_put _ _ hwf hpc]
  by_cases hhit : a.toNat = s.pc.toNat
  · simp [hhit]
  · by_cases hnext : a.toNat = s.pc.toNat + 1
    · simp [hnext]
    · simp [hhit, hnext, Ne.symm hhit, Ne.symm hnext]

/-- Settles O15, by definition of the mirror: its four offsets are 0 to 3. -/
theorem outputMirrorReadsFourCells : Obligations.OutputMirrorReadsFourCells :=
  fun _ _ => rfl

end Sys2Proof.Machine
end

section
/-!
The proofs about validity and `halt` (30_encoding.md R53, R54), from the opcode map read forward and back.
-/

namespace Sys2Proof

/-- The opcode map answers an operation exactly on that operation's own opcode (R55). -/
theorem opOf_eq_some_iff (o : BitVec 5) (op : Op) : opOf o = some op ↔ op.opcode = o :=
  ⟨opcode_of_opOf o op, fun h => h ▸ opOf_opcode op⟩

/-- The opcodes that name an operation (R53). -/
theorem opOf_isSome_iff_mem_legal (o : BitVec 5) :
    (opOf o).isSome = true ↔ o.toNat ∈ [0, 1, 3, 4, 5, 6, 7, 8, 9, 10, 11, 12, 13, 14, 16, 17, 18, 19, 24, 31] := by
  revert o; decide

/-- The opcodes that name none (R53, R58). -/
theorem opOf_isSome_eq_false_iff_mem_illegal (o : BitVec 5) :
    (opOf o).isSome = false ↔ o.toNat ∈ [2, 15, 20, 21, 22, 23, 25, 26, 27, 28, 29, 30] := by
  revert o; decide

/-- A word is valid exactly when the decoder answers an instruction for it. -/
theorem isValid_iff_exists_decodeWord_ok (w : Word) : isValid w = true ↔ ∃ i, decodeWord w = .ok i := by
  rw [isValid, Option.isSome_iff_exists]
  constructor
  · rintro ⟨op, hop⟩
    exact ⟨op.withOperands w, (decodeWord_ok_iff w _).mpr ⟨op, hop, rfl⟩⟩
  · rintro ⟨i, hi⟩
    obtain ⟨op, hop, -⟩ := (decodeWord_ok_iff w i).mp hi
    exact ⟨op, hop⟩

/-- Validity asks nothing of a word but its opcode (R56). -/
theorem isValid_congr_opcodeOf {w w' : Word} (h : opcodeOf w' = opcodeOf w) : isValid w' = isValid w := by
  rw [isValid, h, isValid]

/-- A word decodes to STOP exactly when its opcode is STOP's own. -/
theorem decodeWord_eq_stop_iff (w : Word) : decodeWord w = .ok .stop ↔ Op.stop.opcode = opcodeOf w := by
  rw [decodeWord_ok_iff, ← opOf_eq_some_iff]
  constructor
  · rintro ⟨op, hop, hstop⟩
    have : op = .stop := by rw [← withOperands_op op w, hstop]; rfl
    exact this ▸ hop
  · exact fun hop => ⟨.stop, hop, rfl⟩

theorem isValid_of_isHalt {w : Word} (h : isHalt w = true) : isValid w = true := by
  rw [isHalt, Bool.and_eq_true] at h
  exact h.1

/-- `halt` needs no check beside the opcode's, since opcode 31 is legal (R54). -/
theorem isHalt_iff_opcodeOf (w : Word) : isHalt w = true ↔ opcodeOf w = 31 := by
  rw [isHalt, Bool.and_eq_true, beq_iff_eq, and_iff_right_iff_imp]
  intro h
  rw [isValid, h]
  rfl

/-- Settles O3: validity is the opcode map's answer on the opcode field, and the map is read on its 32 opcodes. -/
theorem legalOpcodeSet : Obligations.LegalOpcodeSet := fun w =>
  ⟨opOf_isSome_iff_mem_legal (opcodeOf w), opOf_isSome_eq_false_iff_mem_illegal (opcodeOf w),
    isValid_iff_exists_decodeWord_ok w, fun _ h => isValid_congr_opcodeOf h⟩

/-- Settles O4: `halt` and decoding to STOP are both the same equation on the opcode field. -/
theorem haltExactlyOpcode31 : Obligations.HaltExactlyOpcode31 := fun w =>
  ⟨isHalt_iff_opcodeOf w, isValid_of_isHalt,
    (isHalt_iff_opcodeOf w).trans (eq_comm.trans (decodeWord_eq_stop_iff w).symm)⟩

end Sys2Proof
end

section
/-!
The proof about `IR` (40_control.md R74): the cycle loads it once and nothing after the load writes it.
-/

namespace Sys2Proof.Machine

/-- `IR` holds the fetched word after every cycle, since neither step 5 nor a mirror writes `IR` (R74). -/
theorem fetchWord_eq_some_ir_of_step {s t : State} (h : step s = .next t) : s.fetchWord = some t.ir := by
  obtain ⟨w, hfetch, ⟨_, _, rfl⟩ | ⟨i, u, _, hexec, rfl⟩⟩ := step_cases s t h
  · rw [State.beginCycle_ir, hfetch]
  · obtain ⟨-, -, hir⟩ := exec_buffers i (s.beginCycle w) u hexec
    rw [State.ioSync_ir, hir, State.beginCycle_ir, hfetch]

/-- Settles O20: the word in `IR` is the fetched one, which is the bytes of its two cells. -/
theorem instructionRegisterHoldsFetchedWord : Obligations.InstructionRegisterHoldsFetchedWord := by
  intro s t hstep
  have hfetch := fetchWord_eq_some_ir_of_step hstep
  obtain ⟨-, hcells⟩ := (s.fetchWord_eq_some_iff t.ir).mp hfetch
  exact ⟨hfetch, hcells.symm⟩

end Sys2Proof.Machine
end

section
/-!
The proofs about the flag engine's primitives (41_alu_register_direct.md R91, R92), with the rule for the five
instructions that end in `ClearCV()`.
-/

namespace Sys2Proof.Machine

/-- A byte is not both zero and negative, so `SetZN` never sets both flags (R91). -/
theorem Flags.setZN_z_and_n (f : Flags) (x : Byte) : ((f.setZN x).z && (f.setZN x).n) = false := by
  rw [Flags.setZN_z, Flags.setZN_n]
  by_cases hx : x = 0
  · rw [hx]; rfl
  · rw [beq_eq_false_iff_ne.mpr hx, Bool.false_and]

/-- Settles O38: `Z` and `N` read the value, and the other clauses are the rules of `SetZN`. -/
theorem setZNWritesZeroAndNegative : Obligations.SetZNWritesZeroAndNegative := fun f x =>
  ⟨beq_iff_eq, BitVec.msb_eq_getLsbD_last x, f.setZN_c x, f.setZN_v x, f.setZN_z_and_n x⟩

/-- AND, OR, MUL, NOT and NEG have one end in common, `SetZN` of the result and then `ClearCV` (R93, R94, R97,
R110, R111). -/
theorem exec_eq_writeAlu_logicOut (i : Instr) (s : State) (h : i.op ∈ [.and, .or, .mul, .not, .neg]) :
    ∃ r, exec i s = writeAlu s (logicOut s.flags r) := by
  cases i with
  | and k => exact ⟨_, rfl⟩
  | or k => exact ⟨_, rfl⟩
  | mul k => exact ⟨_, rfl⟩
  | not => exact ⟨_, rfl⟩
  | neg => exact ⟨_, rfl⟩
  | _ => simp [Instr.op] at h

/-- Settles O39: the five instructions write the flags of `logicOut`, which `ClearCV` leaves with `C` and `V`
false. -/
theorem clearCVForcesCarryAndOverflowFalse : Obligations.ClearCVForcesCarryAndOverflowFalse := by
  refine ⟨fun _ => rfl, fun i s hop => ?_⟩
  obtain ⟨r, hexec⟩ := exec_eq_writeAlu_logicOut i s hop
  exact ⟨_, hexec.trans (writeAlu_eq s _), Flags.clearCV_c _, Flags.clearCV_v _⟩

end Sys2Proof.Machine
end

section
/-!
The proofs about the decoder and the encoder (30_encoding.md R52 to R60). A word is its three fields side by side,
so each statement is about the fields an operation's format keeps.
-/

namespace Sys2Proof

/-! ## A word as its three fields (R51) -/

@[simp] theorem opcodeOf_append (o : BitVec 5) (f : BitVec 3) (x : Byte) : opcodeOf (o ++ f ++ x) = o := by
  rw [opcodeOf, BitVec.extractLsb'_append_eq_of_le (by decide), BitVec.extractLsb'_append_eq_left]

@[simp] theorem rfBits_append (o : BitVec 5) (f : BitVec 3) (x : Byte) :
    (o ++ f ++ x).extractLsb' 8 3 = f := by
  rw [BitVec.extractLsb'_append_eq_of_le (by decide), BitVec.extractLsb'_append_eq_right]

@[simp] theorem opnd8Of_append (o : BitVec 5) (f : BitVec 3) (x : Byte) : opnd8Of (o ++ f ++ x) = x :=
  BitVec.extractLsb'_append_eq_right

/-- The three fields leave no bit of a word out. -/
theorem fields_append (w : Word) : opcodeOf w ++ w.extractLsb' 8 3 ++ opnd8Of w = w := by
  have hhigh : opcodeOf w ++ w.extractLsb' 8 3 = w.extractLsb' 8 8 :=
    BitVec.extractLsb'_append_extractLsb'_eq_extractLsb' rfl
  rw [hhigh]
  exact wordBytes_join w

/-- A mask acts on each field by itself. -/
theorem and_append_fields (w : Word) (o : BitVec 5) (f : BitVec 3) (x : Byte) :
    w &&& (o ++ f ++ x) = (opcodeOf w &&& o) ++ (w.extractLsb' 8 3 &&& f) ++ (opnd8Of w &&& x) := by
  rw [← BitVec.and_append, ← BitVec.and_append, fields_append]

/-- A register index is read back from the bits the encoder writes for it (R57). -/
theorem rfOf_append_ofNat (o : BitVec 5) (r : RegIdx) (x : Byte) :
    rfOf (o ++ BitVec.ofNat 3 r.val ++ x) = r := by
  rw [rfOf, rfBits_append]
  exact Fin.ext (Nat.mod_eq_of_lt r.isLt)

/-! ## What the decoder keeps of a word -/

/-- The decoder on a word whose opcode is an operation's own. -/
theorem decodeWord_of_opcode (op : Op) (w : Word) (h : opcodeOf w = op.opcode) :
    decodeWord w = .ok (op.withOperands w) :=
  (decodeWord_ok_iff w _).mpr ⟨op, (opOf_eq_some_iff _ op).mpr h.symm, rfl⟩

/-- What a decoded instruction has of its word: the opcode, and the operand its operation takes. -/
theorem opcode_and_withOperands_of_decodeWord {w : Word} {i : Instr} (h : decodeWord w = .ok i) :
    i.op.opcode = opcodeOf w ∧ i.op.withOperands w = i := by
  obtain ⟨op, hop, rfl⟩ := (decodeWord_ok_iff w i).mp h
  rw [withOperands_op]
  exact ⟨(opOf_eq_some_iff _ op).mp hop, rfl⟩

/-- The register field of a decoded instruction (R52). -/
theorem rfField_withOperands (op : Op) (w : Word) :
    (op.withOperands w).rfField = if op.format = .register then w.extractLsb' 8 3 else 0#3 := by
  have hrf : BitVec.ofNat 3 (rfOf w).val = w.extractLsb' 8 3 :=
    (BitVec.ofNat_toNat 3 _).trans (BitVec.setWidth_eq _)
  cases op with
  | and | or | addc | sub | mul | ldar | star => exact hrf
  | _ => rfl

/-- The operand byte of a decoded instruction (R52). -/
theorem opnd8Field_withOperands (op : Op) (w : Word) :
    (op.withOperands w).opnd8Field =
      if op.format = .direct ∨ op.format = .immediate then opnd8Of w else 0#8 := by
  cases op <;> rfl

/-- The word of a decoded instruction: the opcode and the fields its format uses, zeros elsewhere (R52, R62). -/
theorem encode_withOperands (op : Op) (w : Word) :
    encode (op.withOperands w) = op.opcode ++ (if op.format = .register then w.extractLsb' 8 3 else 0#3) ++
      (if op.format = .direct ∨ op.format = .immediate then opnd8Of w else 0#8) := by
  rw [encode, withOperands_op, rfField_withOperands, opnd8Field_withOperands]

/-- An operation takes the same operand from two words that agree on the field its format uses (R56). -/
theorem withOperands_congr (op : Op) (w w' : Word) (hrf : op.format = .register → rfOf w = rfOf w')
    (hopnd : op.format = .direct ∨ op.format = .immediate → opnd8Of w = opnd8Of w') :
    op.withOperands w = op.withOperands w' := by
  cases op with
  | and | or | addc | sub | mul | ldar | star => simp only [Op.withOperands, hrf rfl]
  | ldaa | staa => simp only [Op.withOperands, hopnd (.inl rfl)]
  | ldai => simp only [Op.withOperands, hopnd (.inr rfl)]
  | _ => rfl

/-! ## What the encoder writes -/

@[simp] theorem opcodeOf_encode (i : Instr) : opcodeOf (encode i) = i.op.opcode := opcodeOf_append ..

/-- An operation takes from an instruction's word the operand the instruction has. -/
theorem withOperands_encode (i : Instr) : i.op.withOperands (encode i) = i := by
  cases i with
  | and r => exact congrArg Instr.and (rfOf_append_ofNat _ r _)
  | or r => exact congrArg Instr.or (rfOf_append_ofNat _ r _)
  | addc r => exact congrArg Instr.addc (rfOf_append_ofNat _ r _)
  | sub r => exact congrArg Instr.sub (rfOf_append_ofNat _ r _)
  | mul r => exact congrArg Instr.mul (rfOf_append_ofNat _ r _)
  | ldar r => exact congrArg Instr.ldar (rfOf_append_ofNat _ r _)
  | star r => exact congrArg Instr.star (rfOf_append_ofNat _ r _)
  | ldaa a => exact congrArg Instr.ldaa (opnd8Of_append _ _ a)
  | staa a => exact congrArg Instr.staa (opnd8Of_append _ _ a)
  | ldai v => exact congrArg Instr.ldai (opnd8Of_append _ _ v)
  | _ => rfl

theorem decodeWord_encode (i : Instr) : decodeWord (encode i) = .ok i := by
  rw [decodeWord_of_opcode i.op _ (opcodeOf_encode i), withOperands_encode]

/-- The register bits of the encoder are zero in the formats without a register (R62). -/
theorem rfField_of_format_ne (i : Instr) (h : i.op.format ≠ .register) : i.rfField = 0#3 := by
  cases i with
  | and | or | addc | sub | mul | ldar | star => exact absurd rfl h
  | _ => rfl

/-- The operand byte of the encoder is zero in the formats without one (R62). -/
theorem opnd8Field_of_format_ne (i : Instr) (hd : i.op.format ≠ .direct) (hi : i.op.format ≠ .immediate) :
    i.opnd8Field = 0#8 := by
  cases i with
  | ldaa | staa => exact absurd rfl hd
  | ldai => exact absurd rfl hi
  | _ => rfl

/-- The two cells of a valid word decode as the word does, whatever follows them (R36, R50). -/
theorem decodeBytes_wordBytes {w : Word} {i : Instr} (h : decodeWord w = .ok i) (rest : List Byte) :
    decodeBytes (wordBytes w ++ rest) = .ok (i, rest) := by
  simp only [wordBytes, List.cons_append, List.nil_append, decodeBytes, wordBytes_join, h]

/-! ## The statements -/

/-- Settles O1: each field is read back from the bits the encoder writes for it. -/
theorem encodedInstructionDecodes : Obligations.EncodedInstructionDecodes := fun i rest =>
  ⟨decodeWord_encode i, decodeBytes_wordBytes (decodeWord_encode i) rest⟩

/-- Settles O2, by format: a mask is all ones on the fields the format keeps and zero on the others. -/
theorem decodedWordReencodes : Obligations.DecodedWordReencodes := by
  intro w i h
  obtain ⟨hopcode, hi⟩ := opcode_and_withOperands_of_decodeWord h
  rw [← hi, encode_withOperands, withOperands_op, hopcode]
  cases i.op.format with
  | implicit =>
    have hmask := and_append_fields w (BitVec.allOnes 5) 0#3 0#8
    rw [BitVec.and_allOnes, BitVec.and_zero, BitVec.and_zero] at hmask
    exact hmask.symm
  | register =>
    have hmask := and_append_fields w (BitVec.allOnes 5) (BitVec.allOnes 3) 0#8
    rw [BitVec.and_allOnes, BitVec.and_allOnes, BitVec.and_zero] at hmask
    exact hmask.symm
  | direct | immediate =>
    have hmask := and_append_fields w (BitVec.allOnes 5) 0#3 (BitVec.allOnes 8)
    rw [BitVec.and_allOnes, BitVec.and_zero, BitVec.and_allOnes] at hmask
    exact hmask.symm

/-- Settles O5: the decoder reads the opcode and the field of its format, and the encoder writes no other. -/
theorem ignoredBitsHaveNoEffect : Obligations.IgnoredBitsHaveNoEffect := by
  refine ⟨fun w w' h hvalid => (isValid_congr_opcodeOf h.symm).trans hvalid, ?_, fun i => ⟨?_, ?_, ?_⟩⟩
  · intro w w' h hrf hopnd
    simp only [formatOf] at hrf hopnd
    rw [decodeWord, decodeWord, ← h]
    cases hop : opOf (opcodeOf w) with
    | none => rfl
    | some op =>
      simp only [hop, Option.map_some, Option.some.injEq] at hrf hopnd
      exact congrArg Except.ok (withOperands_congr op w w' (fun hf => congrArg BitVec.toFin (hrf hf)) hopnd)
  · intro hf
    apply BitVec.eq_of_toNat_eq
    simp only [BitVec.extractLsb'_toNat, encode_toNat, rfField_of_format_ne i (by simp [hf]),
      opnd8Field_of_format_ne i (by simp [hf]) (by simp [hf]), BitVec.toNat_ofNat, Nat.shiftRight_zero]
    omega
  · intro hf
    rw [← opnd8Field_of_format_ne i (by simp [hf]) (by simp [hf])]
    exact opnd8Of_append ..
  · intro hf
    rw [← rfField_of_format_ne i (by rcases hf with hf | hf <;> simp [hf])]
    exact rfBits_append ..

/-- Settles O6: the decoder computes on the eight words. -/
theorem writtenOutWordsDecode : Obligations.WrittenOutWordsDecode :=
  ⟨rfl, rfl, rfl, rfl, rfl, rfl, rfl, rfl⟩

/-- The mode sets of the opcodes (R52, R55), read from the opcode map on its 32 opcodes. -/
theorem opOf_format (o : BitVec 5) :
    (opOf o).map Op.format =
      if o.toNat ∈ [6, 7, 8, 9, 16, 17, 18, 19, 24, 31] then some .implicit
      else if o.toNat ∈ [0, 1, 3, 4, 5, 10, 11] then some .register
      else if o.toNat ∈ [12, 13] then some .direct
      else if o.toNat = 14 then some .immediate
      else none := by
  revert o; decide

/-- Settles O7: the format is the opcode map's, and decoding keeps the operation the map gives. -/
theorem opcodeSelectsFormat : Obligations.OpcodeSelectsFormat := by
  refine fun w => ⟨opOf_format (opcodeOf w), fun i h => ?_⟩
  obtain ⟨hopcode, -⟩ := opcode_and_withOperands_of_decodeWord h
  rw [formatOf, ← hopcode, opOf_opcode, Option.map_some]

end Sys2Proof
end

section
/-!
The proofs about the assembler's encoding side (30_encoding.md R62): the word of a line in each mode, as the same
three fields the encoder writes.
-/

namespace Sys2Proof.Machine

/-- `OP` is the opcode with every other bit zero (R62). -/
theorem baseWord_eq_append (op : Op) : baseWord op = op.opcode ++ 0#3 ++ 0#8 := by
  cases op <;> rfl

theorem opnd8Of_ofInt (x : Int) : opnd8Of (BitVec.ofInt 16 x) = BitVec.ofInt 8 x := by
  apply BitVec.eq_of_toNat_eq
  rw [opnd8Of_toNat, BitVec.toNat_ofInt, BitVec.toNat_ofInt]
  omega

/-- `operand & 0xFF` is the operand's low 8 bits in the operand field (R62). -/
theorem ofInt_and_0xFF (x : Int) : BitVec.ofInt 16 x &&& 0xFF = 0#5 ++ 0#3 ++ BitVec.ofInt 8 x := by
  have hmask := and_append_fields (BitVec.ofInt 16 x) 0#5 0#3 (BitVec.allOnes 8)
  rw [BitVec.and_zero, BitVec.and_zero, BitVec.and_allOnes] at hmask
  rw [← opnd8Of_ofInt]
  exact hmask

/-- `register << 8` is the index in the register field (R62). -/
theorem ofInt_shiftLeft_eight (r : RegIdx) :
    BitVec.ofInt 16 (r.val : Int) <<< 8 = 0#5 ++ BitVec.ofNat 3 r.val ++ 0#8 := by
  revert r; decide

/-- The `fits` rule at 8 bits, as bounds (R62, U1). -/
theorem fits_eight_iff (x : Int) : fits x 8 = true ↔ -128 ≤ x ∧ x ≤ 255 := by
  simp only [fits, Bool.and_eq_true, decide_eq_true_eq]
  omega

/-! ## The word of a line in each mode -/

/-- An implicit line's word is the opcode alone, its one operand ignored. -/
theorem encodeLine_implicit {op : Op} {xs : List Int} (hf : op.format = .implicit) (hlen : xs.length ≤ 1) :
    encodeLine ⟨op, xs⟩ = .ok (op.opcode ++ 0#3 ++ 0#8) := by
  rw [← baseWord_eq_append]
  match xs, hlen with
  | [], _ => simp [encodeLine, hf]
  | [_], _ => simp [encodeLine, encodeOperand, hf]

theorem encodeLine_register {op : Op} (hf : op.format = .register) (r : RegIdx) :
    encodeLine ⟨op, [(r.val : Int)]⟩ = .ok (op.opcode ++ BitVec.ofNat 3 r.val ++ 0#8) := by
  have hr : 0 ≤ (r.val : Int) ∧ (r.val : Int) ≤ 7 := by have := r.isLt; omega
  simp only [encodeLine, encodeOperand, hf, if_pos hr, baseWord_eq_append, ofInt_shiftLeft_eight]
  rw [BitVec.or_append, BitVec.or_append, BitVec.or_zero, BitVec.zero_or, BitVec.or_zero]

theorem encodeLine_byte {op : Op} (hf : op.format = .direct ∨ op.format = .immediate) {x : Int}
    (hlo : -128 ≤ x) (hhi : x ≤ 255) : encodeLine ⟨op, [x]⟩ = .ok (op.opcode ++ 0#3 ++ BitVec.ofInt 8 x) := by
  have hfits := (fits_eight_iff x).mpr ⟨hlo, hhi⟩
  have hword : baseWord op ||| (BitVec.ofInt 16 x &&& 0xFF) = op.opcode ++ 0#3 ++ BitVec.ofInt 8 x := by
    rw [baseWord_eq_append, ofInt_and_0xFF, BitVec.or_append, BitVec.or_append, BitVec.or_zero, BitVec.or_zero,
      BitVec.zero_or]
  rcases hf with hf | hf <;> simp only [encodeLine, encodeOperand, hf, if_pos hfits, hword]

/-- The unsigned spelling of a byte. -/
theorem encodeLine_toNat {op : Op} (hf : op.format = .direct ∨ op.format = .immediate) (a : Byte) :
    encodeLine ⟨op, [(a.toNat : Int)]⟩ = .ok (op.opcode ++ 0#3 ++ a) := by
  have ha := a.isLt
  rw [encodeLine_byte hf (by omega) (by omega), BitVec.ofInt_natCast, BitVec.ofNat_toNat, BitVec.setWidth_eq]

/-- The signed spelling of a byte. -/
theorem encodeLine_toInt {op : Op} (hf : op.format = .direct ∨ op.format = .immediate) (a : Byte) :
    encodeLine ⟨op, [a.toInt]⟩ = .ok (op.opcode ++ 0#3 ++ a) := by
  have hlo := BitVec.le_toInt a
  have hhi := BitVec.toInt_lt (x := a)
  rw [encodeLine_byte hf (by omega) (by omega), BitVec.ofInt_toInt]

/-- The lines that are well-formed, mode by mode (R62). -/
theorem wellFormed_cases {op : Op} {xs : List Int} (h : SourceLine.wellFormed ⟨op, xs⟩ = true) :
    (op.format = .implicit ∧ xs.length ≤ 1) ∨
    (op.format = .register ∧ ∃ r : RegIdx, xs = [(r.val : Int)]) ∨
    ((op.format = .direct ∨ op.format = .immediate) ∧ ∃ x, xs = [x] ∧ -128 ≤ x ∧ x ≤ 255) := by
  match xs with
  | [] => exact .inl ⟨by simpa [SourceLine.wellFormed] using h, by decide⟩
  | [x] =>
    simp only [SourceLine.wellFormed] at h
    cases hf : op.format with
    | implicit => exact .inl ⟨rfl, by simp⟩
    | register =>
      simp only [hf, Bool.and_eq_true, decide_eq_true_eq] at h
      exact .inr (.inl ⟨rfl, ⟨x.toNat, by omega⟩, by simp only [List.cons.injEq, and_true]; omega⟩)
    | direct | immediate =>
      rw [hf] at h
      exact .inr (.inr ⟨by decide, x, rfl, (fits_eight_iff x).mp h⟩)
  | _ :: _ :: _ => cases h

/-- The assembler answers a word exactly on a well-formed line (R62). -/
theorem encodeLine_ok_iff (l : SourceLine) : (∃ w, encodeLine l = .ok w) ↔ l.wellFormed = true := by
  obtain ⟨op, xs⟩ := l
  constructor
  · rintro ⟨w, h⟩
    match xs with
    | [] =>
      simp only [encodeLine] at h
      split at h
      · simpa [SourceLine.wellFormed]
      · cases h
    | [x] =>
      simp only [encodeLine, encodeOperand] at h
      simp only [SourceLine.wellFormed]
      cases hf : op.format with
      | implicit => rfl
      | register | direct | immediate =>
        simp only [hf] at h
        split at h
        · simpa
        · cases h
    | _ :: _ :: _ => cases h
  · intro h
    obtain ⟨hf, hlen⟩ | ⟨hf, r, rfl⟩ | ⟨hf, x, rfl, hlo, hhi⟩ := wellFormed_cases h
    · exact ⟨_, encodeLine_implicit hf hlen⟩
    · exact ⟨_, encodeLine_register hf r⟩
    · exact ⟨_, encodeLine_byte hf hlo hhi⟩

/-- An emitted word has its line's opcode, and the instruction read from it encodes to it. -/
theorem opcodeOf_and_encode_of_encodeLine {l : SourceLine} {w : Word} (h : encodeLine l = .ok w) :
    opcodeOf w = l.op.opcode ∧ encode (l.op.withOperands w) = w := by
  obtain ⟨op, xs⟩ := l
  obtain ⟨hf, hlen⟩ | ⟨hf, r, rfl⟩ | ⟨hf, x, rfl, hlo, hhi⟩ :=
    wellFormed_cases ((encodeLine_ok_iff _).mp ⟨w, h⟩)
  · cases (encodeLine_implicit hf hlen).symm.trans h
    simp [encode_withOperands, hf]
  · cases (encodeLine_register hf r).symm.trans h
    simp [encode_withOperands, hf]
  · cases (encodeLine_byte hf hlo hhi).symm.trans h
    have hreg : op.format ≠ .register := by rcases hf with hf | hf <;> simp [hf]
    simp [encode_withOperands, hf, hreg]

/-- Settles O8: the errors are the branches of the operand check, and the words are the fields of each mode. -/
theorem assemblerOperandRanges : Obligations.AssemblerOperandRanges := by
  refine ⟨encodeLine_ok_iff, fun op x hf hx => ?_, fun op x hf hx => ?_,
    fun op x hf hlo hhi => encodeLine_byte hf hlo hhi, fun op hf => ?_⟩
  · simp only [encodeLine, encodeOperand, hf]
    exact if_neg (by omega)
  · have hfits : ¬ fits x 8 = true := by rw [fits_eight_iff]; omega
    rcases hf with hf | hf <;> simp only [encodeLine, encodeOperand, hf, if_neg hfits]
  · simp only [encodeLine, if_neg hf]

/-- Settles O9: an emitted word carries its line's opcode and nothing outside its format's fields, and the line of
an instruction writes the instruction's own fields. -/
theorem assembledLineDecodes : Obligations.AssembledLineDecodes := by
  refine ⟨fun l w h => ?_, fun i => ?_⟩
  · obtain ⟨hopcode, hword⟩ := opcodeOf_and_encode_of_encodeLine h
    exact ⟨_, decodeWord_of_opcode l.op w hopcode, withOperands_op l.op w, hword⟩
  · cases i with
    | and r | or r | addc r | sub r | mul r | ldar r | star r => exact encodeLine_register rfl r
    | ldaa a | staa a => exact encodeLine_toNat (.inl rfl) a
    | ldai v => exact encodeLine_toNat (.inr rfl) v
    | _ => exact encodeLine_implicit rfl (by decide)

end Sys2Proof.Machine
end

section
/-!
The results of the instructions (41_alu_register_direct.md, 42_alu_implicit.md, 43_load_store.md,
44_branch_control.md): each as one state equation, then what any instruction can do to the state.
-/

namespace Sys2Proof.Machine

/-! ## The two ends of a meaning -/

/-- `SetZN` in the spelling of the statements (R91). -/
theorem Flags.setZN_eq (f : Flags) (x : Byte) :
    f.setZN x = { f with z := decide (x = 0#8), n := x.getLsbD 7 } := by
  rw [← BitVec.msb_eq_getLsbD_last x]
  rfl

/-- The end of an ALU operation that writes `C` and `V`. -/
theorem writeAlu_setCV (s : State) (x : Byte) (c v : Bool) :
    writeAlu s ⟨x, (s.flags.setZN x).setCV c v⟩ = .next (Expect.afterAlu s x c v) := by
  rw [writeAlu_eq, Flags.setZN_eq]
  rfl

/-- The end of an ALU operation that clears `C` and `V`. -/
theorem writeAlu_logicOut (s : State) (x : Byte) :
    writeAlu s (logicOut s.flags x) = .next (Expect.afterAlu s x false false) :=
  writeAlu_setCV s x false false

/-- The end of a load. -/
theorem loadAcc_eq_afterLoad (s : State) (x : Byte) : loadAcc s x = .next (Expect.afterLoad s x) := by
  rw [loadAcc_eq, Flags.setZN_eq]
  rfl

@[simp] theorem afterAlu_acc (s : State) (x : Byte) (c v : Bool) : (Expect.afterAlu s x c v).acc = x := rfl
@[simp] theorem afterAlu_flags (s : State) (x : Byte) (c v : Bool) :
    (Expect.afterAlu s x c v).flags = ⟨decide (x = 0#8), c, x.getLsbD 7, v⟩ := rfl

/-! ## AND, OR, MUL, NEG, NOT -/

theorem exec_and (r : RegIdx) (s : State) :
    exec (.and r) s = .next (Expect.afterAlu s (s.acc &&& s.regs[r.val]) false false) :=
  writeAlu_logicOut s _

theorem exec_or (r : RegIdx) (s : State) :
    exec (.or r) s = .next (Expect.afterAlu s (s.acc ||| s.regs[r.val]) false false) :=
  writeAlu_logicOut s _

theorem exec_not (s : State) : exec .not s = .next (Expect.afterAlu s (~~~s.acc) false false) :=
  writeAlu_logicOut s _

/-- The low nibble as a number (R97). -/
theorem toNat_lowNibble (a : Byte) : (a.extractLsb' 0 4).toNat = a.toNat % 16 := by
  rw [BitVec.extractLsb'_toNat, Nat.shiftRight_zero]

theorem exec_mul (r : RegIdx) (s : State) :
    exec (.mul r) s = .next (Expect.afterAlu s
      (BitVec.ofNat 8 ((s.acc.toNat % 16) * (s.regs[r.val].toNat % 16))) false false) := by
  rw [← toNat_lowNibble, ← toNat_lowNibble]
  exact writeAlu_logicOut s _

/-- Subtraction of the signed readings, truncated, is subtraction of the bytes (R96, R110). -/
theorem ofInt_toInt_sub_toInt (a b : Byte) : BitVec.ofInt 8 (a.toInt - b.toInt) = a - b := by
  rw [Int.sub_eq_add_neg, BitVec.ofInt_add, BitVec.ofInt_neg, BitVec.ofInt_toInt, BitVec.ofInt_toInt,
    BitVec.sub_eq_add_neg]

theorem exec_neg (s : State) : exec .neg s = .next (Expect.afterAlu s (0#8 - s.acc) false false) := by
  rw [← ofInt_toInt_sub_toInt]
  exact writeAlu_logicOut s _

/-! ## ADDC and SUB -/

/-- The same-sign rule in the spelling of the statements (R95, R96). -/
theorem signRule_eq (a b r : Byte) :
    signRule a b r = decide (a.getLsbD 7 = b.getLsbD 7 ∧ r.getLsbD 7 ≠ a.getLsbD 7) := by
  simp only [signRule, BitVec.msb_eq_getLsbD_last, Nat.add_one_sub_one, Bool.decide_and, bne, decide_not,
    beq_eq_decide]

theorem addcSum_lt (a b : Byte) (cin : Bool) : addcSum a b cin < 512 := by
  have ha := a.isLt
  have hb := b.isLt
  have hc := cin.toNat_le
  rw [addcSum]
  omega

/-- ADDC, its carry read from the 9-bit sum (R95). -/
theorem exec_addc (r : RegIdx) (s : State) :
    exec (.addc r) s = .next (Expect.afterAlu s (BitVec.ofNat 8 (addcSum s.acc s.regs[r.val] s.flags.c))
      (decide (256 ≤ addcSum s.acc s.regs[r.val] s.flags.c))
      (signRule s.acc s.regs[r.val] (BitVec.ofNat 8 (addcSum s.acc s.regs[r.val] s.flags.c)))) := by
  have hlt := addcSum_lt s.acc s.regs[r.val] s.flags.c
  have hcarry : (addcSum s.acc s.regs[r.val] s.flags.c).testBit 8 =
      decide (256 ≤ addcSum s.acc s.regs[r.val] s.flags.c) := by
    rw [Nat.testBit_eq_decide_div_mod_eq, decide_eq_decide]
    omega
  rw [← hcarry]
  exact writeAlu_setCV s _ _ _

theorem exec_sub (r : RegIdx) (s : State) :
    exec (.sub r) s = .next (Expect.afterAlu s (s.acc - s.regs[r.val])
      (decide (s.acc.toInt < s.regs[r.val].toInt)) (signRule s.acc s.regs[r.val] (s.acc - s.regs[r.val]))) := by
  rw [← ofInt_toInt_sub_toInt]
  exact writeAlu_setCV s _ _ _

/-- The sign rule on a sum with carry is signed overflow, and without it the byte is the signed sum (R95). -/
theorem signRule_addcSum (a b : Byte) (cin : Bool) :
    (signRule a b (BitVec.ofNat 8 (addcSum a b cin)) = true ↔
      a.toInt + b.toInt + (cin.toNat : Int) < -128 ∨ 127 < a.toInt + b.toInt + (cin.toNat : Int)) ∧
    (signRule a b (BitVec.ofNat 8 (addcSum a b cin)) = false →
      (BitVec.ofNat 8 (addcSum a b cin)).toInt = a.toInt + b.toInt + (cin.toNat : Int)) := by
  have hcin := cin.toNat_le
  have ha := a.isLt
  have hb := b.isLt
  have hat := BitVec.toInt_eq_toNat_cond a
  have hbt := BitVec.toInt_eq_toNat_cond b
  have hrt := BitVec.toInt_eq_toNat_cond (BitVec.ofNat 8 (addcSum a b cin))
  rw [BitVec.toNat_ofNat] at hrt
  have hsum : addcSum a b cin = a.toNat + b.toNat + cin.toNat := rfl
  have hsign : signRule a b (BitVec.ofNat 8 (addcSum a b cin)) = true ↔
      (a.toInt < 0 ↔ b.toInt < 0) ∧ ¬ ((BitVec.ofNat 8 (addcSum a b cin)).toInt < 0 ↔ a.toInt < 0) := by
    simp only [signRule, BitVec.msb_eq_toInt, Bool.and_eq_true, beq_iff_eq, bne_iff_ne, ne_eq, decide_eq_decide]
  rw [Bool.eq_false_iff, ne_eq, hsign]
  omega

/-! ## The rotations -/

theorem ofBool_getLsbD (a : Byte) (k : Nat) : BitVec.ofBool (a.getLsbD k) = a.extractLsb' k 1 := by
  ext j hj
  obtain rfl : j = 0 := by omega
  simp

theorem extractLsb'_append_getLsbD_zero (a : Byte) : a.extractLsb' 1 7 ++ BitVec.ofBool (a.getLsbD 0) = a := by
  rw [ofBool_getLsbD]
  exact BitVec.extractLsb'_append_extractLsb'

theorem getLsbD_append_extractLsb' (a : Byte) : BitVec.ofBool (a.getLsbD 7) ++ a.extractLsb' 0 7 = a := by
  rw [ofBool_getLsbD]
  exact BitVec.extractLsb'_append_extractLsb'

/-- The bit that entered on the right. -/
theorem getLsbD_zero_append_ofBool (x : BitVec 7) (c : Bool) : (x ++ BitVec.ofBool c).getLsbD 0 = c := by
  rw [BitVec.getLsbD_append, if_pos Nat.one_pos, BitVec.getLsbD_ofBool]
  simp

/-- The bit that entered on the left. -/
theorem getLsbD_seven_ofBool_append (x : BitVec 7) (c : Bool) : (BitVec.ofBool c ++ x).getLsbD 7 = c := by
  rw [BitVec.getLsbD_append, if_neg (lt_irrefl 7), BitVec.getLsbD_ofBool]
  simp

/-- RLC with the carry entering (R112, D4). -/
theorem exec_rlc (s : State) :
    exec .rlc s = .next (Expect.afterAlu s (s.acc.extractLsb' 0 7 ++ BitVec.ofBool s.flags.c)
      (s.acc.getLsbD 7) false) := by
  rw [← BitVec.msb_eq_getLsbD_last s.acc]
  exact writeAlu_setCV s _ _ _

/-- RRC with the carry entering (R113, D4). -/
theorem exec_rrc (s : State) :
    exec .rrc s = .next (Expect.afterAlu s (BitVec.ofBool s.flags.c ++ s.acc.extractLsb' 1 7)
      (s.acc.getLsbD 0) false) :=
  writeAlu_setCV s _ _ _

theorem extractLsb'_append_ofBool (a : Byte) (c : Bool) :
    a.extractLsb' 0 7 ++ BitVec.ofBool c = (a <<< 1) ||| (if c then 0x01#8 else 0x00#8) := by
  have hfill : (if c then 0x01#8 else 0x00#8) = 0#7 ++ BitVec.ofBool c := by cases c <;> rfl
  have hshift : a <<< 1 = a.extractLsb' 0 7 ++ 0#1 := BitVec.shiftLeft_eq_concat_of_lt (by decide)
  rw [hfill, hshift, BitVec.or_append, BitVec.or_zero, BitVec.zero_or]

theorem ofBool_append_extractLsb' (a : Byte) (c : Bool) :
    BitVec.ofBool c ++ a.extractLsb' 1 7 = (a >>> 1) ||| (if c then 0x80#8 else 0x00#8) := by
  have hfill : (if c then 0x80#8 else 0x00#8) = BitVec.ofBool c ++ 0#7 := by cases c <;> rfl
  have hshift : a >>> 1 = 0#1 ++ a.extractLsb' 1 7 := BitVec.ushiftRight_eq_extractLsb'_of_lt (by decide)
  rw [hfill, hshift, BitVec.or_append, BitVec.zero_or, BitVec.or_zero]

/-! ## Loads, stores, branches and control -/

theorem exec_ldar (r : RegIdx) (s : State) : exec (.ldar r) s = .next (Expect.afterLoad s s.regs[r.val]) :=
  loadAcc_eq_afterLoad s _

theorem exec_ldaa (a : Byte) (s : State) :
    exec (.ldaa a) s = .next (Expect.afterLoad s (s.mem.cell a.toNat)) := by
  rw [← directAddr_eq_toNat]
  exact (withDirectCell_eq s a _).trans (loadAcc_eq_afterLoad s _)

theorem exec_ldai (i : Byte) (s : State) : exec (.ldai i) s = .next (Expect.afterLoad s i) :=
  loadAcc_eq_afterLoad s i

theorem exec_star (r : RegIdx) (s : State) : exec (.star r) s = .next (s.setReg r s.acc) := rfl

theorem exec_nop (s : State) : exec .nop s = .next s := rfl

theorem exec_stop (s : State) : exec .stop s = .next (s.setRun .halted) := rfl

/-- The registers after one is written. -/
theorem State.regs_setReg (s : State) (r k : RegIdx) (v : Byte) :
    (s.setReg r v).regs[k.val] = if k = r then v else s.regs[k.val] := by
  split
  · rename_i h
    rw [h]
    exact s.reg_setReg_same r v
  · rename_i h
    exact s.reg_setReg_other r k v h

/-- The state a branch leaves: `x[7]` in `PC` when the opcode's flag is set (R136). -/
def State.afterBranch (s : State) (o : BitVec 5) : State :=
  if Expect.taken o s.flags then s.setPc (s.reg 7) else s

/-- The four branches (R130 to R133). -/
theorem exec_branch (i : Instr) (s : State) (h : i.op ∈ [.brz, .brc, .brn, .bro]) :
    exec i s = .next (s.afterBranch i.op.opcode) := by
  have of_flag (flag : Bool) (hflag : Expect.taken i.op.opcode s.flags = flag) :
      takeBranchWith .unsigned flag s = .next (s.afterBranch i.op.opcode) := by
    rw [takeBranchWith_unsigned, State.afterBranch, hflag]
  cases i with
  | brz => exact of_flag s.flags.z (by simp [Expect.taken, Instr.op, Op.opcode])
  | brc => exact of_flag s.flags.c (by simp [Expect.taken, Instr.op, Op.opcode])
  | brn => exact of_flag s.flags.n (by simp [Expect.taken, Instr.op, Op.opcode])
  | bro => exact of_flag s.flags.v (by simp [Expect.taken, Instr.op, Op.opcode])
  | _ => simp [Instr.op] at h

end Sys2Proof.Machine
end

section
/-!
The statements about single instructions (41_alu_register_direct.md to 44_branch_control.md): the encoding from
the opcode map, the result from the instruction's state equation.
-/

namespace Sys2Proof.Machine

/-! ## The register-direct ALU -/

/-- Settles O40: the low fields of a word with AND's opcode are its operand, and AND is its state equation. -/
theorem andResult : Obligations.AndResult := ⟨decodeWord_of_opcode .and, exec_and⟩

/-- Settles O41: as for AND, with OR's opcode and state equation. -/
theorem orResult : Obligations.OrResult := ⟨decodeWord_of_opcode .or, exec_or⟩

/-- Settles O42: the carry and the sign rule are those of the 9-bit sum. -/
theorem addcResult : Obligations.AddcResult := by
  refine ⟨decodeWord_of_opcode .addc, fun r s t x ht hx => ?_⟩
  subst ht hx
  rw [← signRule_eq]
  exact exec_addc r s

/-- Settles O43: the sign rule on the sum with carry is signed overflow. -/
theorem addcOverflowIsSignedOverflow : Obligations.AddcOverflowIsSignedOverflow := fun r s =>
  ⟨_, exec_addc r s, signRule_addcSum s.acc s.regs[r.val] s.flags.c⟩

/-- Settles O44: SUB's state equation, its overflow in the statement's spelling of the sign rule. -/
theorem subResult : Obligations.SubResult := by
  rintro r s x rfl
  rw [← signRule_eq]
  exact exec_sub r s

/-- Settles O45: two numbers below 16 have a product of at most 15 * 15. -/
theorem mulResult : Obligations.MulResult := by
  refine ⟨decodeWord_of_opcode .mul, fun r s => ⟨?_, exec_mul r s⟩⟩
  have ha : s.acc.toNat % 16 ≤ 15 := by omega
  have hx : s.regs[r.val].toNat % 16 ≤ 15 := by omega
  exact Nat.mul_le_mul ha hx

/-! ## The implicit ALU -/

/-- Settles O46: negation of the signed reading, truncated, is negation of the byte. -/
theorem negResult : Obligations.NegResult := exec_neg

/-- Settles O47: NOT's state equation, and the complement read at bit 7. -/
theorem notResult : Obligations.NotResult :=
  ⟨decodeWord_of_opcode .not, fun s => ⟨exec_not s, by simp⟩⟩

/-- Settles O48: putting the carry beside the seven bits that stay is a shift and an or. -/
theorem rotateResults : Obligations.RotateResults := by
  refine ⟨decodeWord_of_opcode .rlc, decodeWord_of_opcode .rrc, fun s => ?_⟩
  rw [← extractLsb'_append_ofBool, ← ofBool_append_extractLsb']
  exact ⟨exec_rlc s, exec_rrc s⟩

/-- Settles O49: the entering bit stands beside the seven moved bits and in no flag but `Z` and `N`. -/
theorem rotatesWhateverTheFill : Obligations.RotatesWhateverTheFill := by
  intro p a f
  have hmsb (x : Byte) : x.msb = x.getLsbD 7 := BitVec.msb_eq_getLsbD_last x
  refine ⟨?_, hmsb a, rfl, rfl, hmsb _, ?_, rfl, rfl, rfl, hmsb _⟩
  · exact BitVec.extractLsb'_append_eq_left
  · exact BitVec.extractLsb'_append_eq_right

/-- Settles O50: the bit that left is the one that enters, and the seven others move back. -/
theorem rotationsUndoEachOther : Obligations.RotationsUndoEachOther := by
  refine ⟨fun s t u hrlc hrrc => ?_, fun s t u hrrc hrlc => ?_⟩
  · cases (exec_rlc s).symm.trans hrlc
    cases (exec_rrc _).symm.trans hrrc
    have hmoved : (s.acc.extractLsb' 0 7 ++ BitVec.ofBool s.flags.c).extractLsb' 1 7 = s.acc.extractLsb' 0 7 :=
      BitVec.extractLsb'_append_eq_left
    simp only [afterAlu_acc, afterAlu_flags, hmoved]
    exact ⟨getLsbD_append_extractLsb' s.acc, getLsbD_zero_append_ofBool _ s.flags.c⟩
  · cases (exec_rrc s).symm.trans hrrc
    cases (exec_rlc _).symm.trans hrlc
    have hmoved : (BitVec.ofBool s.flags.c ++ s.acc.extractLsb' 1 7).extractLsb' 0 7 = s.acc.extractLsb' 1 7 :=
      BitVec.extractLsb'_append_eq_right
    simp only [afterAlu_acc, afterAlu_flags, hmoved]
    exact ⟨extractLsb'_append_getLsbD_zero s.acc, getLsbD_seven_ofBool_append _ s.flags.c⟩

/-! ## Loads and stores -/

/-- Settles O51: the normalised address is the unsigned byte. -/
theorem directAddressIsUnsignedByte : Obligations.DirectAddressIsUnsignedByte := by
  intro a
  have hint := BitVec.toInt_eq_toNat_cond a
  have hlt := a.isLt
  rw [directAddr_eq_toNat]
  refine ⟨?_, rfl, hlt⟩
  split at hint <;> split <;> omega

/-- Settles O52: as for AND, with LDAR's opcode and state equation. -/
theorem ldarResult : Obligations.LdarResult := ⟨decodeWord_of_opcode .ldar, exec_ldar⟩

/-- Settles O53: as for AND, with LDAA's opcode and state equation. -/
theorem ldaaResult : Obligations.LdaaResult := ⟨decodeWord_of_opcode .ldaa, exec_ldaa⟩

/-- Settles O54: both spellings of a byte assemble to the opcode and that byte. -/
theorem ldaiResult : Obligations.LdaiResult :=
  ⟨decodeWord_of_opcode .ldai, exec_ldai,
    fun i => (encodeLine_toNat (.inr rfl) i).trans (encodeLine_toInt (.inr rfl) i).symm⟩

/-- Settles O55: STAR is one register write. -/
theorem starResult : Obligations.StarResult := fun r s =>
  ⟨_, exec_star r s, rfl, fun k => s.regs_setReg r k s.acc⟩

/-- Settles O56: STAA is one memory write. -/
theorem staaResultAndFrame : Obligations.StaaResultAndFrame := by
  refine fun a s => ⟨_, exec_staa a s, rfl, fun hwf => ?_⟩
  rw [directAddr_eq_toNat]
  refine ⟨Memory.wf_put _ _ _ hwf a.isLt, rfl, ?_, fun b hb => ?_⟩
  · rw [State.setMem_mem, Memory.cell_put _ _ _ _ hwf, if_pos rfl]
  · rw [State.setMem_mem, Memory.cell_put _ _ _ _ hwf, if_neg hb]

/-! ## Branches and control -/

/-- Settles O58: the branch rule at the decided parameter, `s.reg 7` being `x[7]`. -/
theorem branchResults : Obligations.BranchResults := fun s =>
  ⟨takeBranchWith_unsigned s.flags.z s, takeBranchWith_unsigned s.flags.c s,
    takeBranchWith_unsigned s.flags.n s, takeBranchWith_unsigned s.flags.v s⟩

/-- Settles O60: from 0xF800 on the top 5 bits are all ones. -/
theorem stopResult : Obligations.StopResult := by
  refine ⟨exec_stop, fun w hw => decodeWord_of_opcode .stop w (BitVec.eq_of_toNat_eq ?_)⟩
  have hlt := w.isLt
  have hstop : Op.stop.opcode.toNat = 31 := rfl
  rw [opcodeOf_toNat, hstop]
  omega

end Sys2Proof.Machine
end

section
/-!
What step 5 and a whole cycle can do to the state, each said once, and the statements about steps that follow from
it (10_state.md R11, R18, 40_control.md R70 to R86).
-/

namespace Sys2Proof.Machine

/-! ## What an instruction can do -/

/-- What an instruction leaves of a state: one case for each of the shapes of a result. -/
inductive Effect (s : State) : Instr → State → Prop where
  /-- `C` and `V` cleared (R92) -/
  | logic {i : Instr} (hop : i.op ∈ [.and, .or, .mul, .not, .neg]) (x : Byte) :
      Effect s i (Expect.afterAlu s x false false)
  /-- `C` and `V` written (R95, R96) -/
  | arith {i : Instr} (hop : i.op ∈ [.addc, .sub]) (x : Byte) (c v : Bool) : Effect s i (Expect.afterAlu s x c v)
  /-- `C` written, `V` cleared (R112, R113) -/
  | rotate {i : Instr} (hop : i.op ∈ [.rlc, .rrc]) (x : Byte) (c : Bool) : Effect s i (Expect.afterAlu s x c false)
  | load {i : Instr} (hop : i.op ∈ [.ldar, .ldaa, .ldai]) (x : Byte) : Effect s i (Expect.afterLoad s x)
  | star (r : RegIdx) : Effect s (.star r) (s.setReg r s.acc)
  | staa (a : Byte) : Effect s (.staa a) (s.setMem (s.mem.put a.toNat s.acc))
  | branch {i : Instr} (hop : i.op ∈ [.brz, .brc, .brn, .bro]) : Effect s i (s.afterBranch i.op.opcode)
  | nop : Effect s .nop s
  | stop : Effect s .stop (s.setRun .halted)

/-- Every instruction has its effect. -/
theorem exists_effect (i : Instr) (s : State) : ∃ t, exec i s = .next t ∧ Effect s i t := by
  have logic (h : i.op ∈ [.and, .or, .mul, .not, .neg]) : ∃ t, exec i s = .next t ∧ Effect s i t := by
    obtain ⟨x, hx⟩ := exec_eq_writeAlu_logicOut i s h
    exact ⟨_, hx.trans (writeAlu_logicOut s x), .logic h x⟩
  have branch (h : i.op ∈ [.brz, .brc, .brn, .bro]) : ∃ t, exec i s = .next t ∧ Effect s i t :=
    ⟨_, exec_branch i s h, .branch h⟩
  cases i with
  | and | or | mul | not | neg => exact logic (by simp [Instr.op])
  | addc r => exact ⟨_, exec_addc r s, .arith (by simp [Instr.op]) _ _ _⟩
  | sub r => exact ⟨_, exec_sub r s, .arith (by simp [Instr.op]) _ _ _⟩
  | rlc => exact ⟨_, exec_rlc s, .rotate (by decide) _ _⟩
  | rrc => exact ⟨_, exec_rrc s, .rotate (by decide) _ _⟩
  | ldar r => exact ⟨_, exec_ldar r s, .load (by simp [Instr.op]) _⟩
  | ldaa a => exact ⟨_, exec_ldaa a s, .load (by simp [Instr.op]) _⟩
  | ldai v => exact ⟨_, exec_ldai v s, .load (by simp [Instr.op]) _⟩
  | star r => exact ⟨_, exec_star r s, .star r⟩
  | staa a => exact ⟨_, exec_staa a s, .staa a⟩
  | brz | brc | brn | bro => exact branch (by decide)
  | nop => exact ⟨_, exec_nop s, .nop⟩
  | stop => exact ⟨_, exec_stop s, .stop⟩

/-- The inversion of step 5. -/
theorem effect_of_exec {i : Instr} {s t : State} (h : exec i s = .next t) : Effect s i t := by
  obtain ⟨u, hu, heffect⟩ := exists_effect i s
  cases hu.symm.trans h
  exact heffect

/-! ## Its fields -/

/-- No opcode but a branch's is ever taken. -/
theorem taken_eq_false {o : BitVec 5} (f : Flags) (h : o ∉ [16#5, 17#5, 18#5, 19#5]) : Expect.taken o f = false := by
  simp only [List.mem_cons, List.not_mem_nil, or_false, not_or] at h
  obtain ⟨hz, hc, hn, hv⟩ := h
  simp [Expect.taken, hz, hc, hn, hv]

/-- No operation but a branch is ever taken. -/
theorem taken_eq_false_of_op {op : Op} {f : Flags} (h : op ∉ [.brz, .brc, .brn, .bro]) :
    Expect.taken op.opcode f = false := by
  refine taken_eq_false f ?_
  revert h
  cases op <;> decide

/-- A branch writes `PC` at most. -/
theorem State.afterBranch_eq_setPc (s : State) (o : BitVec 5) :
    s.afterBranch o = s.setPc (if Expect.taken o s.flags then s.reg 7 else s.pc) := by
  rw [State.afterBranch]
  split <;> rfl

namespace Effect

variable {s t : State} {i : Instr}

theorem regs (h : Effect s i t) (k : RegIdx) : t.regs[k.val] = if i = .star k then s.acc else s.regs[k.val] := by
  have hne (l : List Op) (hop : i.op ∈ l) (hl : Op.star ∉ l) : ¬ i = .star k := by
    rintro rfl
    exact hl hop
  cases h with
  | logic hop | arith hop | rotate hop | load hop => exact (if_neg (hne _ hop (by decide))).symm
  | branch hop =>
    rw [if_neg (hne _ hop (by decide)), State.afterBranch_eq_setPc, State.setPc_regs]
  | star r => simp only [State.regs_setReg, Instr.star.injEq, eq_comm]
  | staa | nop | stop => rfl

theorem pc (h : Effect s i t) : t.pc = if Expect.taken i.op.opcode s.flags then s.reg 7 else s.pc := by
  have hne (l : List Op) (hop : i.op ∈ l) (hl : ∀ op ∈ l, op ∉ [Op.brz, .brc, .brn, .bro]) :
      Expect.taken i.op.opcode s.flags = false := taken_eq_false_of_op (hl _ hop)
  cases h with
  | logic hop | arith hop | rotate hop | load hop => rw [hne _ hop (by decide)]; rfl
  | branch => rw [State.afterBranch_eq_setPc, State.setPc_pc]
  | star | staa | nop | stop => rfl

theorem run (h : Effect s i t) : t.run = if i = .stop then .halted else s.run := by
  have hne (l : List Op) (hop : i.op ∈ l) (hl : Op.stop ∉ l) : ¬ i = .stop := by
    rintro rfl
    exact hl hop
  cases h with
  | logic hop | arith hop | rotate hop | load hop => exact (if_neg (hne _ hop (by decide))).symm
  | branch hop => rw [if_neg (hne _ hop (by decide)), State.afterBranch_eq_setPc, State.setPc_run]
  | star | staa | nop | stop => rfl

/-- The memory is written by STAA alone. -/
theorem mem (h : Effect s i t) (hne : ∀ a, i ≠ .staa a) : t.mem = s.mem := by
  cases h with
  | branch => rw [State.afterBranch_eq_setPc, State.setPc_mem]
  | staa a => exact absurd rfl (hne a)
  | _ => rfl

theorem mem_wf (h : Effect s i t) (hwf : s.mem.wf = true) : t.mem.wf = true := by
  cases h with
  | staa a => exact Memory.wf_put _ _ _ hwf a.isLt
  | branch => rwa [State.afterBranch_eq_setPc, State.setPc_mem]
  | _ => exact hwf

/-- The cells after an instruction: STAA's own, and the others. -/
theorem cell (h : Effect s i t) (hwf : s.mem.wf = true) (b : Nat) :
    t.mem.cell b = if i.op = .staa ∧ i.opnd8Field.toNat = b then s.acc else s.mem.cell b := by
  by_cases hstaa : i.op = .staa
  · cases h with
    | staa a => simp only [State.setMem_mem, Memory.cell_put _ _ _ _ hwf, Instr.op, Instr.opnd8Field, true_and, eq_comm]
    | logic hop | arith hop | rotate hop | load hop | branch hop => simp [hstaa] at hop
    | star | nop | stop => cases hstaa
  · rw [h.mem (fun a ha => hstaa (congrArg Instr.op ha)), if_neg (fun hc => hstaa hc.1)]

theorem inBuf (h : Effect s i t) : t.inBuf = s.inBuf := by
  cases h with
  | branch => rw [State.afterBranch_eq_setPc, State.setPc_inBuf]
  | _ => rfl

theorem zero_and_negative (h : Effect s i t) (hs : (s.flags.z && s.flags.n) = false) :
    (t.flags.z && t.flags.n) = false := by
  have hbyte (x : Byte) : (decide (x = 0#8) && x.getLsbD 7) = false := by
    have hx := s.flags.setZN_z_and_n x
    rwa [Flags.setZN_eq] at hx
  cases h with
  | logic _ x | arith _ x | rotate _ x | load _ x => exact hbyte x
  | branch => rwa [State.afterBranch_eq_setPc, State.setPc_flags]
  | star | staa | nop | stop => exact hs

/-- `Z` and `N` are `A`'s after an ALU operation or a load. -/
theorem zero_negative_of_acc (h : Effect s i t)
    (hop : i.op ∈ [.and, .or, .addc, .sub, .mul, .neg, .not, .rlc, .rrc, .ldar, .ldaa, .ldai]) :
    t.flags.z = decide (t.acc = 0#8) ∧ t.flags.n = t.acc.getLsbD 7 := by
  cases h with
  | logic | arith | rotate | load => exact ⟨rfl, rfl⟩
  | branch hbr => exact absurd hop ((by decide : ∀ op ∈ [Op.brz, .brc, .brn, .bro], op ∉ _) _ hbr)
  | star | staa | nop | stop => simp [Instr.op] at hop

theorem carry_overflow_of_logic (h : Effect s i t) (hop : i.op ∈ [.and, .or, .mul, .not, .neg]) :
    t.flags.c = false ∧ t.flags.v = false := by
  have hne (l : List Op) (h' : i.op ∈ l) (hl : ∀ op ∈ l, op ∉ [Op.and, .or, .mul, .not, .neg]) : False :=
    hl _ h' hop
  cases h with
  | logic => exact ⟨rfl, rfl⟩
  | arith h' | rotate h' | load h' | branch h' => exact (hne _ h' (by decide)).elim
  | star | staa | nop | stop => simp [Instr.op] at hop

theorem overflow_of_rotate (h : Effect s i t) (hop : i.op ∈ [.rlc, .rrc]) : t.flags.v = false := by
  have hne (l : List Op) (h' : i.op ∈ l) (hl : ∀ op ∈ l, op ∉ [Op.rlc, .rrc]) : False := hl _ h' hop
  cases h with
  | rotate => rfl
  | logic h' | arith h' | load h' | branch h' => exact (hne _ h' (by decide)).elim
  | star | staa | nop | stop => simp [Instr.op] at hop

theorem carry_overflow_of_load (h : Effect s i t) (hop : i.op ∈ [.ldar, .ldaa, .ldai]) :
    t.flags.c = s.flags.c ∧ t.flags.v = s.flags.v := by
  have hne (l : List Op) (h' : i.op ∈ l) (hl : ∀ op ∈ l, op ∉ [Op.ldar, .ldaa, .ldai]) : False := hl _ h' hop
  cases h with
  | load => exact ⟨rfl, rfl⟩
  | logic h' | arith h' | rotate h' | branch h' => exact (hne _ h' (by decide)).elim
  | star | staa | nop | stop => simp [Instr.op] at hop

/-- Nothing but an ALU operation or a load writes `A` or a flag (D5). -/
theorem acc_flags (h : Effect s i t)
    (hop : i.op ∉ [.and, .or, .addc, .sub, .mul, .neg, .not, .rlc, .rrc, .ldar, .ldaa, .ldai]) :
    t.acc = s.acc ∧ t.flags = s.flags := by
  have hmem (l : List Op) (h' : i.op ∈ l)
      (hl : l ⊆ [Op.and, .or, .addc, .sub, .mul, .neg, .not, .rlc, .rrc, .ldar, .ldaa, .ldai]) : False :=
    hop (hl h')
  cases h with
  | logic h' | arith h' | rotate h' | load h' => exact (hmem _ h' (by decide)).elim
  | branch =>
    rw [State.afterBranch_eq_setPc]
    exact ⟨rfl, rfl⟩
  | star | staa | nop | stop => exact ⟨rfl, rfl⟩

end Effect

/-- Settles O57: the fields of an instruction's effect. -/
theorem nonStoringFrame : Obligations.NonStoringFrame := by
  intro i s t hne hexec
  have heffect := effect_of_exec hexec
  obtain ⟨hin, hout, hir⟩ := exec_buffers i s t hexec
  have hmem := heffect.mem hne
  refine ⟨fun b => by rw [hmem], hmem, hir, hin, hout, fun k hk => ?_, fun hop => ?_,
    heffect.carry_overflow_of_load, fun hop => ?_, fun hop => ?_⟩
  · rw [heffect.regs, if_neg hk]
  · exact heffect.acc_flags ((by decide : ∀ op ∈ [Op.star, .brz, .brc, .brn, .bro, .nop, .stop], op ∉ _) _ hop)
  · rw [heffect.pc, taken_eq_false_of_op hop]
    rfl
  · rw [heffect.run, if_neg (fun hstop => hop (congrArg Instr.op hstop))]

end Sys2Proof.Machine
end

section
/-!
The statements about the cycle (40_control.md R71 to R76, R86, 60_exceptions.md R141): when a step answers, and each
field of the state it answers.
-/

namespace Sys2Proof.Machine

/-! ## The fetch and its fault -/

theorem succ_toNat_lt_memSize_iff (pc : Byte) : pc.toNat + 1 < memSize ↔ pc ≠ 0xFF#8 := by
  have hlt := pc.isLt
  rw [ne_eq, ← BitVec.toNat_inj]
  simp only [memSize, BitVec.toNat_ofNat]
  omega

/-- The two cells of a fetch are in memory but for the last `PC` (R141). -/
theorem State.fetchWord_of_ne (s : State) (h : s.pc ≠ 0xFF#8) :
    s.fetchWord = some (s.mem.cell s.pc.toNat ++ s.mem.cell (s.pc.toNat + 1)) :=
  s.fetchWord_of_lt ((succ_toNat_lt_memSize_iff s.pc).mpr h)

theorem State.fetchWord_eq_none_iff (s : State) : s.fetchWord = none ↔ s.pc = 0xFF#8 := by
  constructor
  · intro hnone
    by_contra hne
    simp [s.fetchWord_of_ne hne] at hnone
  · intro hpc
    exact s.fetchWord_of_ge (fun hlt => (succ_toNat_lt_memSize_iff s.pc).mp hlt hpc)

theorem step_of_last {s : State} (h : s.pc = 0xFF#8) : step s = .fault .fetchOutOfRange := by
  simp only [step, cycleWith, s.fetchWord_eq_none_iff.mpr h, raiseFault]

/-! ## The cycle of a fetched word -/

theorem step_of_decodeWord {s : State} {w : Word} {i : Instr} (hfetch : s.fetchWord = some w)
    (hdec : decodeWord w = .ok i) : step s = finishCycle (exec i (s.beginCycle w)) := by
  simp only [step, cycleWith, hfetch, hdec]

theorem step_of_invalid {s : State} {w : Word} (hfetch : s.fetchWord = some w)
    (hop : opOf (opcodeOf w) = none) : step s = .next (s.beginCycle w) := by
  have hdec := (decodeWord_error_iff w _).mpr ⟨hop, rfl⟩
  simp only [step, cycleWith, hfetch, hdec, skipInvalid]

/-- The inversion of a step whose word is known. -/
theorem step_effect {s t : State} {w : Word} (hfetch : s.fetchWord = some w) (h : step s = .next t) :
    (opOf (opcodeOf w) = none ∧ t = s.beginCycle w) ∨
      ∃ i u, decodeWord w = .ok i ∧ Effect (s.beginCycle w) i u ∧ t = u.ioSync := by
  obtain ⟨w', hfetch', ⟨e, he, rfl⟩ | ⟨i, u, hdec, hexec, rfl⟩⟩ := step_cases s t h
  · cases hfetch.symm.trans hfetch'
    exact .inl ⟨((decodeWord_error_iff w e).mp he).1, rfl⟩
  · cases hfetch.symm.trans hfetch'
    exact .inr ⟨i, u, hdec, effect_of_exec hexec, rfl⟩

theorem step_answers {s : State} (h : s.pc ≠ 0xFF#8) : ∃ t, step s = .next t := by
  have hfetch := s.fetchWord_of_ne h
  cases hop : opOf (opcodeOf (s.mem.cell s.pc.toNat ++ s.mem.cell (s.pc.toNat + 1))) with
  | none => exact ⟨_, step_of_invalid hfetch hop⟩
  | some op =>
    have hdec := decodeWord_of_opcode op _ ((opOf_eq_some_iff _ op).mp hop).symm
    obtain ⟨u, hu⟩ := exec_answers (op.withOperands _) (s.beginCycle _)
    refine ⟨u.ioSync, (step_of_decodeWord hfetch hdec).trans ?_⟩
    rw [hu, finishCycle]

/-- The advanced `PC` in the statements' spelling (R73). -/
theorem ofNat_toNat_add_two (pc : Byte) : BitVec.ofNat 8 (pc.toNat + 2) = pc + 2 := by
  rw [BitVec.ofNat_add, BitVec.ofNat_toNat, BitVec.setWidth_eq]
  rfl

/-- The first half of a cycle (R73 to R75). -/
theorem State.beginCycle_eq (s : State) (w : Word) :
    s.beginCycle w = State.ioSync { s with pc := s.pc + 2, ir := w } := by
  rw [← ofNat_toNat_add_two]
  rfl

/-- An illegal opcode names no operation. -/
theorem opOf_eq_none_of_mem {o : BitVec 5} (h : o.toNat ∈ [2, 15, 20, 21, 22, 23, 25, 26, 27, 28, 29, 30]) :
    opOf o = none := by
  have hnone := (opOf_isSome_eq_false_iff_mem_illegal o).mpr h
  rwa [Option.isSome_eq_false_iff, Option.isNone_iff_eq_none] at hnone

/-- A decoded instruction is of an operation exactly when its word has that opcode. -/
theorem opcodeOf_eq_iff {w : Word} {i : Instr} (hdec : decodeWord w = .ok i) (op : Op) :
    opcodeOf w = op.opcode ↔ i.op = op := by
  obtain ⟨hopcode, -⟩ := opcode_and_withOperands_of_decodeWord hdec
  rw [← hopcode]
  refine ⟨fun h => ?_, fun h => by rw [h]⟩
  rw [← Option.some_inj, ← opOf_opcode, h, opOf_opcode]

/-- Opcode 31 decodes to STOP and nothing else does. -/
theorem opcodeOf_eq_stop_iff {w : Word} {i : Instr} (hdec : decodeWord w = .ok i) :
    opcodeOf w = 31 ↔ i = .stop := by
  refine (opcodeOf_eq_iff hdec .stop).trans ?_
  cases i <;> simp [Instr.op]

/-- A word that names no operation has no operation's opcode. -/
theorem opcodeOf_ne_of_invalid {w : Word} (hop : opOf (opcodeOf w) = none) (op : Op) : opcodeOf w ≠ op.opcode := by
  intro h
  rw [h, opOf_opcode] at hop
  cases hop

/-! ## The fields after a step -/

section
variable {s t : State} {w : Word}

theorem step_pc (hfetch : s.fetchWord = some w) (h : step s = .next t) :
    t.pc = if Expect.taken (opcodeOf w) s.flags then s.reg 7 else s.pc + 2 := by
  rw [← ofNat_toNat_add_two]
  obtain ⟨hop, rfl⟩ | ⟨i, u, hdec, heffect, rfl⟩ := step_effect hfetch h
  · have hne : opcodeOf w ∉ [16#5, 17#5, 18#5, 19#5] := by
      have hno := opcodeOf_ne_of_invalid hop
      simp only [List.mem_cons, List.not_mem_nil, or_false, not_or]
      exact ⟨hno .brz, hno .brc, hno .brn, hno .bro⟩
    rw [taken_eq_false _ hne]
    rfl
  · obtain ⟨hopcode, -⟩ := opcode_and_withOperands_of_decodeWord hdec
    rw [State.ioSync_pc, heffect.pc, hopcode]
    rfl

theorem step_run (hfetch : s.fetchWord = some w) (h : step s = .next t) :
    t.run = if opcodeOf w = 31 then .halted else s.run := by
  obtain ⟨hop, rfl⟩ | ⟨i, u, hdec, heffect, rfl⟩ := step_effect hfetch h
  · exact (if_neg (opcodeOf_ne_of_invalid hop .stop)).symm
  · simp only [State.ioSync_run, heffect.run, opcodeOf_eq_stop_iff hdec, State.beginCycle_run]

theorem step_regs (hfetch : s.fetchWord = some w) (h : step s = .next t) (k : RegIdx) :
    t.regs[k.val] = if opcodeOf w = 11 ∧ k = rfOf w then s.acc else s.regs[k.val] := by
  obtain ⟨hop, rfl⟩ | ⟨i, u, hdec, heffect, rfl⟩ := step_effect hfetch h
  · exact (if_neg (fun hstar => opcodeOf_ne_of_invalid hop .star hstar.1)).symm
  · have hstar : i = .star k ↔ opcodeOf w = 11 ∧ k = rfOf w := by
      obtain ⟨-, hi⟩ := opcode_and_withOperands_of_decodeWord hdec
      constructor
      · rintro rfl
        exact ⟨(opcodeOf_eq_iff hdec .star).mpr rfl, (Instr.star.inj hi).symm⟩
      · rintro ⟨hopcode, rfl⟩
        rw [← hi, (opcodeOf_eq_iff hdec .star).mp hopcode]
        rfl
    simp only [State.ioSync_regs, heffect.regs, hstar, State.beginCycle_acc, State.beginCycle_regs]

theorem step_zero_and_negative (h : step s = .next t) (hs : (s.flags.z && s.flags.n) = false) :
    (t.flags.z && t.flags.n) = false := by
  have hfetch := fetchWord_eq_some_ir_of_step h
  obtain ⟨-, ht⟩ | ⟨i, u, -, heffect, ht⟩ := step_effect hfetch h
  · rwa [ht, State.beginCycle_flags]
  · rw [ht, State.ioSync_flags]
    exact heffect.zero_and_negative hs

end

/-! ## The statements -/

/-- Settles O26: the invariant of an instruction's effect, the rest of the cycle writing no flag. -/
theorem stepKeepsZeroAndNegativeExclusive : Obligations.StepKeepsZeroAndNegativeExclusive :=
  fun _ _ hs h => step_zero_and_negative h hs

/-- Settles O17: the two cells are the fetched word, and its instruction runs between two mirrors. -/
theorem stepRunsDecodedInstruction : Obligations.StepRunsDecodedInstruction := by
  intro s i hpc hdec
  have hword : decodeWord (s.mem.cell s.pc.toNat ++ s.mem.cell (s.pc.toNat + 1)) = .ok i := by
    simp only [decodeBytes] at hdec
    split at hdec
    · rename_i hok
      cases hdec
      exact hok
    · cases hdec
  refine ⟨(encodeLine_ok_iff i.source).mp ⟨_, assembledLineDecodes.2 i⟩, ?_, fun u => rfl⟩
  rw [← State.beginCycle_eq]
  exact step_of_decodeWord (s.fetchWord_of_ne hpc) hword

/-- Settles O18: the fetch is the only stop of a step. -/
theorem stepFaultsExactlyAtLastCell : Obligations.StepFaultsExactlyAtLastCell := by
  refine ⟨fun s k => ?_, fun s r hr => ?_, fun s h => step_answers h⟩
  · by_cases hpc : s.pc = 0xFF#8
    · simp [step_of_last hpc, hpc, eq_comm]
    · obtain ⟨t, ht⟩ := step_answers hpc
      simp [ht, hpc]
  · by_cases hpc : s.pc = 0xFF#8
    · cases (step_of_last hpc).symm.trans hr
    · obtain ⟨t, ht⟩ := step_answers hpc
      cases ht.symm.trans hr

/-- Settles O19: an invalid word ends its cycle after the first mirror. -/
theorem invalidWordIsSkipped : Obligations.InvalidWordIsSkipped := by
  intro s w hfetch hop
  rw [← State.beginCycle_eq]
  exact step_of_invalid hfetch (opOf_eq_none_of_mem hop)

/-- Settles O59: NOP leaves the state between the two mirrors as it is. -/
theorem nopResult : Obligations.NopResult := by
  refine ⟨exec_nop, fun s w hfetch hop => ?_⟩
  rw [← State.beginCycle_eq, step_of_decodeWord hfetch (decodeWord_of_opcode .nop w hop)]
  rfl

/-- Settles O21: `PC` after a branch's effect and after any other. -/
theorem pcAdvancesByTwoUnlessBranchTaken : Obligations.PcAdvancesByTwoUnlessBranchTaken := by
  intro s t w hfetch h
  have hmod : BitVec.ofNat 8 ((s.pc.toNat + 2) % 256) = s.pc + 2 := by
    rw [← ofNat_toNat_add_two]
    exact BitVec.eq_of_toNat_eq (Nat.mod_mod _ 256)
  rw [step_pc hfetch h, hmod]
  rfl

/-- Settles O23: the registers after STAR's effect and after any other. -/
theorem onlyStarWritesRegisters : Obligations.OnlyStarWritesRegisters :=
  fun _ _ _ hfetch h k => step_regs hfetch h k

/-- Settles O31: `PC` = 0xFF is odd, and adding 2 keeps bit 0. -/
theorem evenPcStaysEvenAndNeverFaults : Obligations.EvenPcStaysEvenAndNeverFaults := by
  intro s hpc hreg
  have hne : s.pc ≠ 0xFF#8 := by
    intro h
    rw [h] at hpc
    cases hpc
  obtain ⟨t, ht⟩ := step_answers hne
  refine ⟨t, ht, ?_⟩
  rw [step_pc (s.fetchWord_of_ne hne) ht]
  split
  · exact hreg
  · have hbit (x : Byte) : x.getLsbD 0 = false ↔ x.toNat % 2 = 0 := by
      rw [← BitVec.testBit_toNat, Nat.testBit_zero, decide_eq_false_iff_not]
      omega
    rw [hbit] at hpc ⊢
    rw [← ofNat_toNat_add_two, BitVec.toNat_ofNat]
    omega

/-- Settles O25: the flags of an instruction's effect, its opcode read as its operation. -/
theorem flagsWrittenPerOpcode : Obligations.FlagsWrittenPerOpcode := by
  intro s t w hfetch h
  obtain ⟨hop, rfl⟩ | ⟨i, u, hdec, heffect, rfl⟩ := step_effect hfetch h
  · have unnamed (l : List Nat)
        (hl : l ⊆ [0, 1, 3, 4, 5, 6, 7, 8, 9, 10, 11, 12, 13, 14, 16, 17, 18, 19, 24, 31])
        (hmem : (opcodeOf w).toNat ∈ l) : False := by
      have hsome := (opOf_isSome_iff_mem_legal (opcodeOf w)).mpr (hl hmem)
      rw [hop] at hsome
      cases hsome
    exact ⟨fun hm => (unnamed _ (by decide) hm).elim, fun hm => (unnamed _ (by decide) hm).elim,
      fun hm => (unnamed _ (by decide) hm).elim, fun hm => (unnamed _ (by decide) hm).elim, fun _ => rfl⟩
  · obtain ⟨hopcode, -⟩ := opcode_and_withOperands_of_decodeWord hdec
    rw [← hopcode]
    have writers : i.op.opcode.toNat ∈ [0, 1, 3, 4, 5, 6, 7, 8, 9, 10, 12, 14] ↔
        i.op ∈ [.and, .or, .addc, .sub, .mul, .neg, .not, .rlc, .rrc, .ldar, .ldaa, .ldai] := by
      cases i.op <;> decide
    have logic : i.op.opcode.toNat ∈ [0, 1, 5, 6, 7] → i.op ∈ [.and, .or, .mul, .not, .neg] := by
      cases i.op <;> decide
    have rotate : i.op.opcode.toNat ∈ [8, 9] → i.op ∈ [.rlc, .rrc] := by
      cases i.op <;> decide
    have load : i.op.opcode.toNat ∈ [10, 12, 14] → i.op ∈ [.ldar, .ldaa, .ldai] := by
      cases i.op <;> decide
    exact ⟨fun hop => heffect.zero_negative_of_acc (writers.mp hop),
      fun hop => heffect.carry_overflow_of_logic (logic hop), fun hop => heffect.overflow_of_rotate (rotate hop),
      fun hop => heffect.carry_overflow_of_load (load hop),
      fun hop => (heffect.acc_flags (fun hw => hop (writers.mpr hw))).2⟩

end Sys2Proof.Machine
end

section
/-!
The statements about the channels and about memory over a cycle (20_memory.md R41 to R43, 40_control.md R86), and
that a step keeps the legal states: every cycle that answers ends in a mirror.
-/

namespace Sys2Proof.Machine

/-! ## The input mirror's cells -/

/-- The cells after an input mirror: a character's byte where one is mirrored, the old content elsewhere (R41). -/
theorem State.cell_inputMirrorAt (s : State) (base b : Nat) (hwf : s.mem.wf = true) (hbase : base + 2 ≤ memSize) :
    (s.inputMirrorAt base).mem.cell b =
      if h : base ≤ b ∧ b < base + s.mirrorBytes.length then s.mirrorBytes[b - base]'(by omega)
      else s.mem.cell b := by
  have hlen := s.mirrorBytes_length
  exact Memory.cell_putCells _ _ _ s.mirrorBytes hwf (by omega)

theorem State.mirrorBytes_length_eq (s : State) : s.mirrorBytes.length = min 2 s.inBuf.length := by
  rw [State.mirrorBytes, List.length_map, List.length_take]
  rfl

theorem State.cell_inputMirrorAt_add (s : State) (base j : Nat) (hwf : s.mem.wf = true)
    (hbase : base + 2 ≤ memSize) (hj : j < 2) (hlen : j < s.inBuf.length) :
    (s.inputMirrorAt base).mem.cell (base + j) = BitVec.ofNat 8 s.inBuf[j] := by
  have hbytes := s.mirrorBytes_length_eq
  rw [s.cell_inputMirrorAt _ _ hwf hbase, dif_pos (by omega)]
  simp [State.mirrorBytes]

/-- Settles O14: the mirror is a put of the buffered characters' bytes. -/
theorem inputMirrorCopiesCharacters : Obligations.InputMirrorCopiesCharacters := by
  refine fun s base hwf hbase => ⟨rfl, fun j hj hlen => s.cell_inputMirrorAt_add base j hwf hbase hj hlen,
    fun b hb => ?_⟩
  have hbytes := s.mirrorBytes_length_eq
  rw [s.cell_inputMirrorAt _ _ hwf hbase, dif_neg (by omega)]

/-- `IoSync()` leaves the cells that are not mirrored. -/
theorem State.cell_ioSync_of_not_mirrored (s : State) {b : Nat} (hwf : s.mem.wf = true)
    (hb : s.mirrored b = false) : s.ioSync.mem.cell b = s.mem.cell b := by
  rw [s.cell_ioSync b hwf, dif_neg]
  rintro ⟨hlo, hhi⟩
  rw [State.mirrorBytes, List.length_map] at hhi
  rw [State.mirrored, decide_eq_true hlo, decide_eq_true hhi] at hb
  cases hb

/-- Which cells are mirrored depends on the input buffer alone. -/
theorem State.mirrored_congr {s u : State} (h : u.inBuf = s.inBuf) (b : Nat) : u.mirrored b = s.mirrored b := by
  rw [State.mirrored, State.mirrored, h]

/-! ## Memory and the buffers over a step -/

/-- A step answers the state of a mirror, whose input buffer is the old one and whose memory is canonical when the
old one is. -/
theorem step_eq_ioSync {s t : State} (h : step s = .next t) :
    ∃ u : State, t = u.ioSync ∧ u.inBuf = s.inBuf ∧ (s.mem.wf = true → u.mem.wf = true) := by
  obtain ⟨w, -, ⟨_, _, rfl⟩ | ⟨i, u, _, hexec, rfl⟩⟩ := step_cases s t h
  · exact ⟨s.advancePc.setIr w, rfl, rfl, fun hwf => hwf⟩
  · obtain ⟨hin, -, -⟩ := exec_buffers i _ u hexec
    exact ⟨u, rfl, hin, fun hwf => (effect_of_exec hexec).mem_wf (s.wf_ioSync hwf)⟩

theorem step_inBuf {s t : State} (h : step s = .next t) : t.inBuf = s.inBuf := by
  obtain ⟨u, rfl, hin, -⟩ := step_eq_ioSync h
  exact hin

/-- After a step the output buffer shows the output range (R42). -/
theorem step_outBuf {s t : State} (h : step s = .next t) :
    t.outBuf = [t.mem.cell ioOutBase, t.mem.cell (ioOutBase + 1), t.mem.cell (ioOutBase + 2),
      t.mem.cell (ioOutBase + 3)] := by
  obtain ⟨u, rfl, -, -⟩ := step_eq_ioSync h
  exact congrArg State.outBuf (outputMirrorReadsFourCells (u.inputMirrorAt ioInBase) ioOutBase)

/-- A step keeps the legal states. -/
theorem step_inv {s t : State} (hinv : s.Inv) (h : step s = .next t) : t.Inv := by
  obtain ⟨hwf, hin, -⟩ := hinv
  refine ⟨?_, by rwa [step_inBuf h], .inr (by rw [step_outBuf h]; rfl)⟩
  obtain ⟨u, rfl, -, hu⟩ := step_eq_ioSync h
  exact u.wf_ioSync (hu hwf)

/-- Settles O27: the invariant of a step. -/
theorem stepKeepsLegalStates : Obligations.StepKeepsLegalStates := fun _ _ hinv h => step_inv hinv h

/-- Settles O16: what the last mirror of the cycle leaves. -/
theorem cycleLeavesChannelsMirrored : Obligations.CycleLeavesChannelsMirrored := by
  intro s t hwf h
  refine ⟨step_inBuf h, step_outBuf h, fun j hj hlen => ?_⟩
  obtain ⟨u, rfl, hin, hu⟩ := step_eq_ioSync h
  have hcell := u.cell_inputMirrorAt_add ioInBase j (hu hwf) ioInBase_bound hj (by rwa [hin])
  exact hcell.trans (by simp only [hin])

theorem step_cell {s t : State} {w : Word} (hwf : s.mem.wf = true) (hfetch : s.fetchWord = some w)
    (h : step s = .next t) {b : Nat} (hb : s.mirrored b = false) :
    t.mem.cell b = if opcodeOf w = 13 ∧ (opnd8Of w).toNat = b then s.acc else s.mem.cell b := by
  have hbegin : (s.beginCycle w).mem.cell b = s.mem.cell b := s.cell_ioSync_of_not_mirrored hwf hb
  obtain ⟨hop, rfl⟩ | ⟨i, u, hdec, heffect, rfl⟩ := step_effect hfetch h
  · rw [hbegin, if_neg (fun hstaa => opcodeOf_ne_of_invalid hop .staa hstaa.1)]
  · have hwf' : (s.beginCycle w).mem.wf = true := s.wf_ioSync hwf
    have hstaa : (i.op = .staa ∧ i.opnd8Field.toNat = b) ↔ (opcodeOf w = 13 ∧ (opnd8Of w).toNat = b) := by
      obtain ⟨-, hi⟩ := opcode_and_withOperands_of_decodeWord hdec
      have hop := opcodeOf_eq_iff hdec .staa
      rw [← hop]
      refine and_congr_right fun hopcode => ?_
      rw [← hi, opnd8Field_withOperands, hop.mp hopcode]
      rfl
    rw [u.cell_ioSync_of_not_mirrored (heffect.mem_wf hwf') ((State.mirrored_congr heffect.inBuf b).trans hb),
      heffect.cell hwf', hbegin]
    simp only [hstaa, State.beginCycle_acc]

/-- Settles O24: one put for STAA between two mirrors. -/
theorem memoryChangesOnlyByStoreAndMirror : Obligations.MemoryChangesOnlyByStoreAndMirror :=
  fun _ _ _ hwf hfetch h _ hb => step_cell hwf hfetch h hb

end Sys2Proof.Machine
end

section
/-!
The statements about `RUN`, runs and the host's moves (40_control.md R70, R80, R81, 70_reset_and_hazards.md R160 to
R166).
-/

namespace Sys2Proof.Machine

/-! ## `RUN` in a step -/

/-- An instruction does the same whatever `RUN` holds, and STOP overwrites it (D15). -/
theorem exec_setRun {i : Instr} {s u : State} (h : exec i s = .next u) (r : RunState) :
    exec i (s.setRun r) = .next (if i = .stop then u else u.setRun r) := by
  have branch (hop : i.op ∈ [.brz, .brc, .brn, .bro]) :
      exec i (s.setRun r) = .next (u.setRun r) := by
    rw [exec_branch i _ hop] at h ⊢
    cases h
    rw [State.afterBranch_eq_setPc, State.afterBranch_eq_setPc]
    rfl
  cases i with
  | ldaa a =>
    rw [exec_ldaa] at h ⊢
    cases h
    rfl
  | staa a =>
    rw [exec_staa] at h ⊢
    cases h
    rfl
  | brz | brc | brn | bro => exact branch (by decide)
  | _ =>
    cases h
    rfl

/-- Settles O32: the fetch, the mirrors and every instruction but STOP carry a replaced `RUN` along. -/
theorem stepIgnoresRunState : Obligations.StepIgnoresRunState := by
  intro s t w r hfetch h
  obtain ⟨w', hfetch', hcases⟩ := step_cases s t h
  cases hfetch.symm.trans hfetch'
  have hfetchRun : (s.setRun r).fetchWord = some w := hfetch
  obtain ⟨e, hdec, rfl⟩ | ⟨i, u, hdec, hexec, rfl⟩ := hcases
  · obtain ⟨hop, -⟩ := (decodeWord_error_iff w e).mp hdec
    have hne : ¬ opcodeOf w = 31 := opcodeOf_ne_of_invalid hop .stop
    rw [step_of_invalid hfetchRun hop, if_neg hne]
    rfl
  · have hstop : opcodeOf w = 31 ↔ i = .stop := opcodeOf_eq_stop_iff hdec
    have hrun : exec i ((s.setRun r).beginCycle w) = .next (if i = .stop then u else u.setRun r) :=
      exec_setRun hexec r
    rw [step_of_decodeWord hfetchRun hdec, hrun]
    simp only [finishCycle, hstop]
    split <;> rfl

/-! ## Runs -/

theorem runFor_of_halted {s : State} (h : s.run = .halted) (k : Nat) : runFor k s = .next s := by
  cases k with
  | zero => rfl
  | succ k => rw [runFor_succ, h]

theorem runFor_succ_of_step {s t : State} (hrun : s.run = .running) (h : step s = .next t) (k : Nat) :
    runFor (k + 1) s = runFor k t := by
  rw [runFor_succ, hrun, h]

theorem runFor_succ_of_fault {s : State} {f : Fault} (hrun : s.run = .running) (h : step s = .fault f) (k : Nat) :
    runFor (k + 1) s = .fault f := by
  rw [runFor_succ, hrun, h]

/-- A run that answers has done nothing, or has made a step and run on from it. -/
theorem runFor_succ_cases {k : Nat} {s t : State} (h : runFor (k + 1) s = .next t) :
    (s.run = .halted ∧ t = s) ∨ ∃ u, s.run = .running ∧ step s = .next u ∧ runFor k u = .next t := by
  cases hrun : s.run with
  | halted =>
    rw [runFor_of_halted hrun] at h
    cases h
    exact .inl ⟨rfl, rfl⟩
  | running =>
    cases hstep : step s with
    | next u =>
      rw [runFor_succ_of_step hrun hstep] at h
      exact .inr ⟨u, rfl, rfl, h⟩
    | fault f => cases (runFor_succ_of_fault hrun hstep k).symm.trans h
    | refused r =>
      rw [runFor_succ, hrun, hstep] at h
      cases h

/-- What every step keeps, every run keeps. -/
theorem runFor_keeps {P : State → Prop} (hstep : ∀ s t, P s → step s = .next t → P t) {k : Nat} {s t : State}
    (hs : P s) (h : runFor k s = .next t) : P t := by
  induction k generalizing s with
  | zero =>
    cases h
    exact hs
  | succ k ih =>
    obtain ⟨-, rfl⟩ | ⟨u, -, hu, hrest⟩ := runFor_succ_cases h
    · exact hs
    · exact ih (hstep s u hs hu) hrest

/-- Settles O33: the first cycle taken off a run. -/
theorem runCyclesWhileRunning : Obligations.RunCyclesWhileRunning :=
  ⟨fun k _ hrun => runFor_of_halted hrun k, fun k _ _ hrun h => runFor_succ_of_step hrun h k,
    fun k _ _ hrun h => runFor_succ_of_fault hrun h k⟩

/-- A step from RUNNING to HALTED ran a STOP, and advanced `PC` (R165). -/
theorem opcodeOf_ir_of_step_halts {s t : State} (h : step s = .next t) (hrun : s.run = .running)
    (hhalt : t.run = .halted) : opcodeOf t.ir = 31 ∧ t.pc = s.pc + 2 := by
  have hfetch := fetchWord_eq_some_ir_of_step h
  have hop : opcodeOf t.ir = 31 := by
    by_contra hne
    rw [step_run hfetch h, if_neg hne, hrun] at hhalt
    cases hhalt
  refine ⟨hop, ?_⟩
  rw [step_pc hfetch h, hop, taken_eq_false _ (by decide)]
  rfl

/-- Settles O34, by induction on the cycles: the last one is the first that leaves HALTED. -/
theorem runEndsAtStop : Obligations.RunEndsAtStop := by
  intro k
  induction k with
  | zero =>
    intro s t hrun h hhalt
    cases h
    cases hrun.symm.trans hhalt
  | succ k ih =>
    intro s t hrun h hhalt
    obtain ⟨hhalted, -⟩ | ⟨u, -, hstep, hrest⟩ := runFor_succ_cases h
    · cases hrun.symm.trans hhalted
    · cases hu : u.run with
      | halted =>
        cases (runFor_of_halted hu k).symm.trans hrest
        obtain ⟨hop, hpc⟩ := opcodeOf_ir_of_step_halts hstep hrun hhalt
        exact ⟨s, hrun, hstep, fetchWord_eq_some_ir_of_step hstep, hop, hpc, step_outBuf hstep, 0, k.succ_pos, rfl⟩
      | running =>
        obtain ⟨v, hv, hlast, hfetch, hop, hpc, hout, j, hj, hreach⟩ := ih u t hu hrest hhalt
        exact ⟨v, hv, hlast, hfetch, hop, hpc, hout, j + 1, by omega,
          (runFor_succ_of_step hrun hstep j).trans hreach⟩

/-! ## The host's moves -/

/-- Loading keeps the canonical form. -/
theorem wf_loadProgram {m m' : Memory} {loc : Nat} {ws : List Word} (hwf : m.wf = true)
    (h : loadProgram m loc ws = some m') : m'.wf = true := by
  induction ws generalizing m loc with
  | nil =>
    cases h
    exact hwf
  | cons w ws ih =>
    simp only [loadProgram] at h
    split at h
    · rename_i m1 hm1
      exact ih (Memory.wf_writeWide m m1 loc _ _ hwf hm1) h
    · cases h

/-- An `init` that answers, answers the reset state with the loaded memory (R160). -/
theorem init_cases {ws : List Word} {t : State} (h : State.init ws = .next t) :
    ∃ m, loadProgram State.reset.mem 0 ws = some m ∧ t = State.reset.setMem m := by
  simp only [State.init] at h
  split at h
  · rename_i m hm
    cases h
    exact ⟨m, hm, rfl⟩
  · cases h

/-- Settles O28, move by move. -/
theorem hostMovesKeepLegalStates : Obligations.HostMovesKeepLegalStates := by
  intro s t m hinv h
  cases m with
  | init ws =>
    obtain ⟨mem, hload, rfl⟩ := init_cases h
    exact ⟨wf_loadProgram Memory.wf_reset hload, Nat.zero_le _, .inl rfl⟩
  | step => exact step_inv hinv h
  | run k => exact runFor_keeps (fun _ _ => step_inv) hinv h
  | setRun b =>
    cases h
    exact hinv
  | writeInput cs =>
    cases h
    obtain ⟨hwf, -, hout⟩ := hinv
    exact ⟨hwf, List.length_take_le _ _, hout⟩

/-- Settles O22: STOP's clause is `RUN` after a step, and the way back is a case for each move. -/
theorem runStateChangesOnlyByStop : Obligations.RunStateChangesOnlyByStop := by
  have hinit (ws : List Word) (t : State) (h : State.init ws = .next t) : t.run = .running := by
    obtain ⟨m, -, rfl⟩ := init_cases h
    rfl
  refine ⟨fun r => by cases r <;> decide, fun _ _ _ => step_run, fun _ => rfl, hinit,
    fun s t m hhalt hrun h => ?_⟩
  cases m with
  | init ws => exact .inr ⟨ws, rfl⟩
  | step =>
    have hstays := step_run (fetchWord_eq_some_ir_of_step h) h
    rw [hhalt, ite_self, hrun] at hstays
    cases hstays
  | run k =>
    cases (runFor_of_halted hhalt k).symm.trans h
    cases hhalt.symm.trans hrun
  | setRun b =>
    cases h
    cases b with
    | true => exact .inl rfl
    | false => cases hrun
  | writeInput cs =>
    cases h
    cases hhalt.symm.trans hrun

/-- Settles O36: the written buffer is the only field that changes, and a step keeps it. -/
theorem inputBufferKeepsLeadingCharacters : Obligations.InputBufferKeepsLeadingCharacters :=
  ⟨fun _ _ => ⟨rfl, rfl⟩, fun _ _ => step_inBuf⟩

/-- Settles O29: reset memory is canonical, and the other clauses read reset's fields. -/
theorem resetIsLegal : Obligations.ResetIsLegal := ⟨⟨Memory.wf_reset, Nat.zero_le _, .inl rfl⟩, rfl⟩

/-- Settles O30: reset's fields, its registers a constant vector and its memory empty. -/
theorem resetValues : Obligations.ResetValues :=
  ⟨rfl, fun k => Vector.getElem_replicate k.isLt, rfl, rfl, rfl, rfl, fun _ => rfl, rfl, rfl⟩

/-- The two packings as weights of the flags (R17). -/
theorem toNat_pack (f : Flags) :
    (f.pack .zcnv).toNat = 8 * f.z.toNat + 4 * f.c.toNat + 2 * f.n.toNat + f.v.toNat ∧
    (f.pack .vncz).toNat = 8 * f.v.toNat + 4 * f.n.toNat + 2 * f.c.toNat + f.z.toNat := by
  obtain ⟨z, c, n, v⟩ := f
  simp only [Flags.pack, append_toNat, BitVec.toNat_ofBool]
  omega

/-- Settles O37: the host reads the packing of the open order, which is one of two. -/
theorem packedStatusRegister : Obligations.PackedStatusRegister := by
  have hread (s : State) : s.getRegister .status = s.flags.pack srPack := rfl
  refine ⟨toNat_pack, hread, ?_⟩
  cases horder : srPack with
  | zcnv => exact .inl (fun s => (hread s).trans (by rw [horder]))
  | vncz => exact .inr (fun s => (hread s).trans (by rw [horder]))

end Sys2Proof.Machine
end

section
/-!
The statements about reads and writes of several cells (20_memory.md R31 to R36) and about `init`, which loads a
program with them (70_reset_and_hazards.md R161). Bytes side by side are compared byte by byte.
-/

namespace Sys2Proof.Machine

/-! ## Reads and writes inside memory and past its end -/

theorem Memory.readCell_eq_none_iff (m : Memory) (a : Nat) : m.readCell a = none ↔ memSize ≤ a := by
  simp [Memory.readCell]

theorem Memory.writeCell_eq_none_iff (m : Memory) (a : Nat) (v : Byte) :
    m.writeCell a v = none ↔ memSize ≤ a := by
  simp [Memory.writeCell]

theorem Memory.readCells_of_le (m : Memory) {a k : Nat} (h : a + k ≤ memSize) :
    m.readCells a k = some ((List.range k).map fun i => m.cell (a + i)) := by
  induction k generalizing a with
  | zero => rfl
  | succ k ih =>
    have hcell : m.readCell a = some (m.cell a) := if_pos (by omega)
    have hoff (i : Nat) : a + 1 + i = a + (i + 1) := by omega
    simp only [Memory.readCells, hcell, ih (a := a + 1) (by omega), List.range_succ_eq_map, List.map_cons,
      List.map_map, Function.comp_def, Nat.add_zero, hoff]

theorem Memory.readCells_of_gt (m : Memory) {a k : Nat} (hk : 0 < k) (h : memSize < a + k) :
    m.readCells a k = none := by
  induction k generalizing a with
  | zero => exact absurd hk (lt_irrefl 0)
  | succ k ih =>
    simp only [Memory.readCells]
    rcases Nat.eq_zero_or_pos k with rfl | hpos
    · rw [(m.readCell_eq_none_iff a).mpr (by omega)]
    · rw [ih (a := a + 1) hpos (by omega)]
      cases m.readCell a <;> rfl

theorem Memory.writeCells_of_le (m : Memory) {a : Nat} {bs : List Byte} (h : a + bs.length ≤ memSize) :
    m.writeCells a bs = some (m.putCells a bs) := by
  induction bs generalizing m a with
  | nil => rfl
  | cons b bs ih =>
    rw [List.length_cons] at h
    have hcell : m.writeCell a b = some (m.put a b) := if_pos (by omega)
    simp only [Memory.writeCells, hcell, ih (m.put a b) (a := a + 1) (by omega), Memory.putCells]

theorem Memory.writeCells_of_gt (m : Memory) {a : Nat} {bs : List Byte} (hbs : bs ≠ [])
    (h : memSize < a + bs.length) : m.writeCells a bs = none := by
  induction bs generalizing m a with
  | nil => exact absurd rfl hbs
  | cons b bs ih =>
    rw [List.length_cons] at h
    simp only [Memory.writeCells]
    split
    · rename_i m1 hm1
      have hlt : ¬ memSize ≤ a := by
        rw [← m.writeCell_eq_none_iff a b, hm1]
        exact Option.some_ne_none m1
      refine ih m1 ?_ (by omega)
      rintro rfl
      exact hlt (by simpa using h)
    · rfl

theorem Memory.writeCells_append (m : Memory) (a : Nat) (bs cs : List Byte) :
    m.writeCells a (bs ++ cs) = (m.writeCells a bs).bind fun m' => m'.writeCells (a + bs.length) cs := by
  induction bs generalizing m a with
  | nil => rfl
  | cons b bs ih =>
    simp only [List.cons_append, Memory.writeCells, List.length_cons]
    cases m.writeCell a b with
    | none => rfl
    | some m1 =>
      rw [Nat.add_comm bs.length 1, ← Nat.add_assoc]
      exact ih m1 (a + 1)

/-- A cell that has been put. -/
theorem Memory.cell_putCells_add (m : Memory) {a j : Nat} {bs : List Byte} (hwf : m.wf = true)
    (ha : a + bs.length ≤ memSize) (hj : j < bs.length) : (m.putCells a bs).cell (a + j) = bs[j] := by
  rw [Memory.cell_putCells m a _ bs hwf ha, dif_pos (by omega)]
  simp only [Nat.add_sub_cancel_left]

/-- A cell that has not been put. -/
theorem Memory.cell_putCells_other (m : Memory) {a b : Nat} {bs : List Byte} (hwf : m.wf = true)
    (ha : a + bs.length ≤ memSize) (hb : b < a ∨ a + bs.length ≤ b) : (m.putCells a bs).cell b = m.cell b := by
  rw [Memory.cell_putCells m a b bs hwf ha, dif_neg (by omega)]

/-! ## Bytes side by side -/

/-- Bytes put below a number `n`: each byte moves it up by one. -/
theorem foldl_bytes_eq (n : Nat) (bs : List Byte) :
    bs.foldl (fun n b => 256 * n + b.toNat) n = n * 256 ^ bs.length + concatCells bs := by
  induction bs generalizing n with
  | nil => simp [concatCells]
  | cons c cs ih =>
    rw [concatCells, List.foldl_cons, List.foldl_cons, ih, ih, List.length_cons, pow_succ]
    ring

theorem concatCells_cons (b : Byte) (bs : List Byte) :
    concatCells (b :: bs) = b.toNat * 256 ^ bs.length + concatCells bs := by
  rw [concatCells, List.foldl_cons, foldl_bytes_eq, Nat.mul_zero, Nat.zero_add]

theorem concatCells_lt (bs : List Byte) : concatCells bs < 256 ^ bs.length := by
  induction bs with
  | nil => exact Nat.one_pos
  | cons b bs ih =>
    have hb : (b.toNat + 1) * 256 ^ bs.length ≤ 256 * 256 ^ bs.length := Nat.mul_le_mul_right _ b.isLt
    rw [concatCells_cons, List.length_cons, pow_succ]
    linarith

/-- Byte `i` from the top (R32). -/
theorem concatCells_div_mod (bs : List Byte) (i : Nat) (h : i < bs.length) :
    concatCells bs / 256 ^ (bs.length - 1 - i) % 256 = bs[i].toNat := by
  induction bs generalizing i with
  | nil => cases h
  | cons b bs ih =>
    rw [concatCells_cons, List.length_cons, Nat.add_sub_cancel]
    cases i with
    | zero =>
      rw [Nat.sub_zero, Nat.mul_comm, Nat.mul_add_div (by positivity), Nat.div_eq_of_lt (concatCells_lt bs)]
      exact Nat.mod_eq_of_lt b.isLt
    | succ i =>
      rw [List.length_cons] at h
      have hexp : bs.length - (i + 1) = bs.length - 1 - i := by omega
      have hpow : 256 ^ bs.length = 256 ^ (bs.length - 1 - i) * (256 ^ i * 256) := by
        rw [← pow_succ, ← pow_add]
        congr 1
        omega
      have hhigh : b.toNat * 256 ^ bs.length = 256 ^ (bs.length - 1 - i) * (256 * (b.toNat * 256 ^ i)) := by
        rw [hpow]
        ring
      rw [hexp, hhigh, Nat.mul_add_div (by positivity), Nat.mul_add_mod, List.getElem_cons_succ]
      exact ih i (by omega)

/-- A vector of bytes is its bytes. -/
theorem eq_of_extractLsb'_eq {k : Nat} {x y : BitVec (8 * k)}
    (h : ∀ i, i < k → x.extractLsb' (8 * (k - 1 - i)) 8 = y.extractLsb' (8 * (k - 1 - i)) 8) : x = y := by
  apply BitVec.eq_of_getLsbD_eq
  intro j hj
  have hbit := congrArg (fun b : Byte => b.getLsbD (j % 8)) (h (k - 1 - j / 8) (by omega))
  have hpos : 8 * (k - 1 - (k - 1 - j / 8)) + j % 8 = j := by omega
  simpa [BitVec.getLsbD_extractLsb', Nat.mod_lt, hpos] using hbit

/-- Byte `i` from the top of the vector of some bytes. -/
theorem extractLsb'_ofNat_concatCells {k : Nat} (bs : List Byte) (hk : bs.length = k) (i : Nat) (hi : i < k) :
    (BitVec.ofNat (8 * k) (concatCells bs)).extractLsb' (8 * (k - 1 - i)) 8 = bs[i] := by
  subst hk
  apply BitVec.eq_of_toNat_eq
  have hlt : concatCells bs < 2 ^ (8 * bs.length) := by
    rw [pow_mul]
    exact concatCells_lt bs
  rw [BitVec.extractLsb'_toNat, BitVec.toNat_ofNat, Nat.mod_eq_of_lt hlt, Nat.shiftRight_eq_div_pow, pow_mul]
  exact concatCells_div_mod bs i hi

/-! ## The statements about memory -/

/-- Settles O10: the bound of one access, the fetch's two cells, and that every instruction answers. -/
theorem indexOutsideMemoryIsAnError : Obligations.IndexOutsideMemoryIsAnError :=
  ⟨Memory.readCell_eq_none_iff, Memory.writeCell_eq_none_iff, State.fetchWord_eq_none_iff,
    fun _ => step_of_last, fun a s => ⟨exec_answers (.ldaa a) s, exec_answers (.staa a) s⟩⟩

/-- Settles O11: byte `i` from the top of the concatenation is cell `a + i`. -/
theorem multiCellReadConcatenates : Obligations.MultiCellReadConcatenates := by
  refine fun m a k => ⟨fun h => ⟨_, by rw [Memory.readWide, m.readCells_of_le h]; rfl, fun i hi => ?_⟩,
    fun hk h => by rw [Memory.readWide, m.readCells_of_gt hk h]; rfl⟩
  rw [extractLsb'_ofNat_concatCells _ (by simp) i hi]
  simp

/-- Settles O12: the cells read back are the slices written, so the vector read is the number's own. -/
theorem multiCellWriteThenRead : Obligations.MultiCellWriteThenRead := by
  intro m loc n data hwf hn hloc hlo hhi
  have hlen : (slices data n).length = cellsFor n := by simp [slices]
  have hwrite : m.writeWide loc data n = some (m.putCells loc (slices data n)) :=
    m.writeCells_of_le (by rw [hlen]; exact hloc)
  obtain ⟨v, hread, hbytes⟩ := (multiCellReadConcatenates (m.putCells loc (slices data n)) loc (cellsFor n)).1 hloc
  refine ⟨_, v, hwrite, hread, ?_, fun b hb => ?_⟩
  · have hv : v = (BitVec.ofInt n data).signExtend (8 * cellsFor n) := by
      refine eq_of_extractLsb'_eq fun i hi => ?_
      rw [hbytes i hi, m.cell_putCells_add hwf (by rw [hlen]; exact hloc) (by rw [hlen]; exact hi)]
      simp [slices]
    have hwidth : n ≤ 8 * cellsFor n := by
      rw [cellsFor]
      omega
    rw [hv, BitVec.toInt_signExtend_of_le hwidth, BitVec.toInt_ofInt_eq_self hn hlo hhi]
  · exact m.cell_putCells_other hwf (by rw [hlen]; exact hloc) (by rw [hlen]; exact hb)

/-! ## Loading a program -/

/-- The two slices of a word are its two bytes (R34, R36). -/
theorem slices_toInt (w : Word) : slices w.toInt 16 = wordBytes w := by
  have hword : (BitVec.ofInt 16 w.toInt).signExtend 16 = w := by rw [BitVec.ofInt_toInt, BitVec.signExtend_eq]
  have hslices : slices w.toInt 16 = wordBytes ((BitVec.ofInt 16 w.toInt).signExtend 16) := rfl
  rw [hslices, hword]

/-- Loading is one write of the program's bytes. -/
theorem loadProgram_eq_writeCells (m : Memory) (loc : Nat) (ws : List Word) :
    loadProgram m loc ws = m.writeCells loc (ws.flatMap wordBytes) := by
  induction ws generalizing m loc with
  | nil => rfl
  | cons w ws ih =>
    rw [loadProgram, Memory.writeWide, slices_toInt, List.flatMap_cons, Memory.writeCells_append]
    cases m.writeCells loc (wordBytes w) with
    | none => rfl
    | some m1 => exact ih m1 (loc + 2)

theorem length_flatMap_wordBytes (ws : List Word) : (ws.flatMap wordBytes).length = 2 * ws.length := by
  induction ws with
  | nil => rfl
  | cons w ws ih =>
    rw [List.flatMap_cons, List.length_append, ih, List.length_cons]
    simp only [wordBytes, List.length_cons, List.length_nil]
    omega

/-- The bytes of word `i` of a program. -/
theorem getElem?_flatMap_wordBytes (ws : List Word) (i : Nat) (h : i < ws.length) :
    (ws.flatMap wordBytes)[2 * i]? = some (ws[i].extractLsb' 8 8) ∧
    (ws.flatMap wordBytes)[2 * i + 1]? = some (ws[i].extractLsb' 0 8) := by
  induction ws generalizing i with
  | nil => cases h
  | cons w ws ih =>
    cases i with
    | zero => exact ⟨rfl, rfl⟩
    | succ i => exact ih i (Nat.lt_of_succ_lt_succ h)

/-- Settles O35: a program's bytes are put from cell 0 on, or reach past the last cell. -/
theorem initLoadsProgram : Obligations.InitLoadsProgram := by
  intro ws
  have hlen := length_flatMap_wordBytes ws
  refine ⟨fun h => ?_, fun h => ?_⟩
  · have hfits : 0 + (ws.flatMap wordBytes).length ≤ memSize := by
      simp only [memSize]
      omega
    have hload := (loadProgram_eq_writeCells State.reset.mem 0 ws).trans (Memory.writeCells_of_le _ hfits)
    have hcell (j : Nat) (b : Byte) (hb : (ws.flatMap wordBytes)[j]? = some b) :
        (State.reset.mem.putCells 0 (ws.flatMap wordBytes)).cell j = b := by
      obtain ⟨hj, hget⟩ := List.getElem?_eq_some_iff.mp hb
      rw [← hget, ← Memory.cell_putCells_add _ Memory.wf_reset hfits hj, Nat.zero_add]
    refine ⟨_, by rw [State.init, hload]; rfl, fun i hi => ?_, fun b hb => ?_⟩
    · obtain ⟨hhi, hlo⟩ := getElem?_flatMap_wordBytes ws i hi
      exact ⟨hcell _ _ hhi, hcell _ _ hlo⟩
    · exact Memory.cell_putCells_other _ Memory.wf_reset hfits (.inr (by omega))
  · have hbs : ws.flatMap wordBytes ≠ [] := by
      rw [← List.length_pos_iff]
      omega
    have hload := (loadProgram_eq_writeCells State.reset.mem 0 ws).trans
      (Memory.writeCells_of_gt _ hbs (by simp only [memSize]; omega))
    rw [State.init, hload]
    rfl

end Sys2Proof.Machine
end
